-- ==== Sys2Proof/Word.lean ====
section
/-! DEFINITION. The word types of the hardware (00_scope.md R6, R8). -/

namespace Sys2Proof

/-- An 8-bit value, `u8`: one byte of memory, a CPU data register, the status register. -/
abbrev Byte := BitVec 8

/-- A 16-bit value, `u16`: the program counter and every AddressSpace address. -/
abbrev Word := BitVec 16

/-- A 15-bit value, `u15`: the scroll registers `cur` and `tmp` (10_state.md R33). -/
abbrev Scroll := BitVec 15

/-- A 14-bit VRam index (20_memory.md R58). -/
abbrev VIndex := BitVec 14

end Sys2Proof
end

