-- ==== Sys2Proof/Config.lean ====
section
/-! DEFINITION. The parameters the spec leaves open for the running machine (00_scope.md R7), as constants with
no body, and what an unlisted byte of memory reads as. -/

namespace Sys2Proof

/-- The RGBA value of a colour. PRESUMED: the spec gives no channel widths; four bytes are taken (log 7, safe: no
rule computes with a channel). -/
structure Rgba where
  r : Byte
  g : Byte
  b : Byte
  a : Byte
  deriving DecidableEq, Repr, Inhabited

/-- The shape of `CPU_CYCLES`: the executed opcode byte, whether a BNE branched, whether an Absolute+X or branch
target left the page of its base (60_exceptions.md R278). -/
abbrev CycleTable := Byte → Bool → Bool → Nat

/-- `CPU_CYCLES`, the open parameter of 00_scope.md R7 and 60_exceptions.md R278 (92 D27): no value is known of
it (log 6). -/
opaque Config.cpuCycles : CycleTable

/-- `NES_COLOR : Fin 64 -> RGBA`, the open colour table of 00_scope.md R7 (92 D23): no entry is known (log 7). -/
opaque Config.nesColor : Fin 64 → Rgba

/-- The NMOS 6502 cycle counts of 70_reset_and_hazards.md R311, informative there: one admissible value of
`CPU_CYCLES`. The machine's step does not use it; tests run the scheduler with it. -/
def Config.nmosCycles : CycleTable := fun op taken crossed =>
  if op = 0x8D#8 then 4
  else if op = 0x21#8 ∨ op = 0x20#8 then 6
  else if op = 0x4C#8 then 3
  else if op = 0xBD#8 then (if crossed then 5 else 4)
  else if op = 0xD0#8 then (if taken then (if crossed then 4 else 3) else 2)
  else 2

/-- What an address that a memory does not list reads as. DESIGN CHOICE (log 2): any contents can be listed, so
this decides only how memories are written down and what State.reset holds. -/
def Config.unlistedByte : Byte := 0#8

end Sys2Proof
end

