-- ==== Sys2Proof/Machine/Bits.lean ====
section
/-! DEFINITION. Byte order, sign extension and bit fields (00_scope.md R8, 20_memory.md R50). -/

namespace Sys2Proof

/-- Bits 7:0 of a word. -/
def loByte (w : Word) : Byte := w.extractLsb' 0 8

/-- Bits 15:8 of a word; for an address, its page. -/
def hiByte (w : Word) : Byte := w.extractLsb' 8 8

/-- `hi:lo`, that is `(hi << 8) | lo` (00_scope.md R8, 20_memory.md R50). -/
def wordOf (hi lo : Byte) : Word := (hi.setWidth 16 <<< 8) ||| lo.setWidth 16

/-- `sext_16` of 00_scope.md R8. -/
def sext16 (b : Byte) : Word := b.signExtend 16

/-- `zext_16` of 00_scope.md R8. -/
def zext16 (b : Byte) : Word := b.setWidth 16

/-- The `width` ones that start at bit `lo`, in a scroll register. -/
def fieldMask (lo width : Nat) : Scroll := BitVec.ofNat 15 (2 ^ width - 1) <<< lo

/-- A field write of a scroll register, `r[lo+width-1:lo] <- f`: the value is masked to the field's width, so no
write can overflow (10_state.md R33, 60_exceptions.md R263). -/
def setField (r : Scroll) (lo width : Nat) (f : Byte) : Scroll :=
  (r &&& ~~~ fieldMask lo width) ||| ((f.setWidth 15 <<< lo) &&& fieldMask lo width)

/-- A field read of a scroll register, `r[lo+width-1:lo]` as a number. -/
def field (r : Scroll) (lo width : Nat) : Nat := (r.extractLsb' lo width).toNat

/-- `r[7:0] <- b` of a 16-bit shift register. -/
def withLow (r : BitVec 16) (b : Byte) : BitVec 16 := wordOf (hiByte r) b

/-- `r[15:8] <- b` of a 16-bit shift register. -/
def withHigh (r : BitVec 16) (b : Byte) : BitVec 16 := wordOf b (loByte r)

end Sys2Proof
end

