-- ==== Sys2Proof/Machine/Memory.lean ====
section
/-! DEFINITION. A byte memory as plain data in one canonical form, for AddressSpace (10_state.md R31) and VRam
(10_state.md R32), and its raw operations: no port side effect stands here. -/

namespace Sys2Proof.Machine

/-- A memory: its cells by strictly rising address, none equal to what an unlisted address reads as (log 2). -/
abbrev Memory := List Host.Cell

/-- The size of AddressSpace in bytes (10_state.md R31). -/
def addressSpaceSize : Nat := 65536

/-- The size of VRam in bytes (10_state.md R32). -/
def vramSize : Nat := 16384

/-- The canonical form from address `lo` on: every address at least `lo`, strictly rising, below `size`, and no
cell that holds the unlisted byte. -/
def Memory.wfFrom (size : Nat) : Nat → Memory → Bool
  | _, [] => true
  | lo, (a, v) :: m =>
    decide (lo ≤ a) && decide (a < size) && (v != Config.unlistedByte) && Memory.wfFrom size (a + 1) m

/-- The canonical form of a memory of `size` bytes. -/
def Memory.wf (size : Nat) (m : Memory) : Bool := Memory.wfFrom size 0 m

/-- The byte at an address. -/
def Memory.read : Memory → Nat → Byte
  | [], _ => Config.unlistedByte
  | (a, v) :: m, k => if a = k then v else Memory.read m k

/-- Take an address out of the list. -/
def Memory.erase (m : Memory) (k : Nat) : Memory := m.filter (fun c => c.1 != k)

/-- Put a cell in before the first higher address. -/
def Memory.insert : Memory → Nat → Byte → Memory
  | [], k, v => [(k, v)]
  | (a, w) :: m, k, v => if k < a then (k, v) :: (a, w) :: m else (a, w) :: Memory.insert m k v

/-- Store one byte; the canonical form is kept, and a byte equal to the unlisted one is not listed. -/
def Memory.write (m : Memory) (k : Nat) (v : Byte) : Memory :=
  if v = Config.unlistedByte then m.erase k else (m.erase k).insert k v

/-- The cells of consecutive bytes from `base` on. -/
def Memory.ofBytes : Nat → List Byte → Memory
  | _, [] => []
  | base, v :: bytes =>
    if v = Config.unlistedByte then Memory.ofBytes (base + 1) bytes
    else (base, v) :: Memory.ofBytes (base + 1) bytes

/-- Place consecutive bytes from `base` on, over whatever stood there: `for i: M[base + i] <- bytes[i]`
(70_reset_and_hazards.md R291, R292). -/
def Memory.place (m : Memory) (base : Nat) (bytes : List Byte) : Memory :=
  m.filter (fun c => c.1 < base) ++ (Memory.ofBytes base bytes ++
    m.filter (fun c => base + bytes.length ≤ c.1))

/-- `reset_vector() = M[0xFFFD] : M[0xFFFC]` (70_reset_and_hazards.md R293). -/
def resetVector (m : Memory) : Word := wordOf (m.read 0xFFFD) (m.read 0xFFFC)

end Sys2Proof.Machine
end

