-- ==== Sys2Proof/Syntax.lean ====
section
/-! DEFINITION. The instructions, and the decoder's and resolver's own vocabulary: mnemonics, addressing modes,
index register, operands (00_scope.md R11, R12; 30_encoding.md R93). -/

namespace Sys2Proof

/-- The twelve mnemonics of 00_scope.md R12. -/
inductive Mnemonic
  | sei | lda | ldx | ldy | sta | txs | inx | dey | bne | jmp | jsr | and
  deriving DecidableEq, Repr

/-- The five addressing modes of 00_scope.md R12. -/
inductive Mode
  | implied | immediate | absolute | relative | indexedIndirect
  deriving DecidableEq, Repr

/-- The index registers a mode may use: only X (00_scope.md R12); no index is `Option.none`. -/
inductive Index
  | x
  deriving DecidableEq, Repr

/-- A decoded instruction triple `(mnemonic, mode, index)` (00_scope.md R12). -/
structure Decoded where
  mnemonic : Mnemonic
  mode     : Mode
  index    : Option Index
  deriving DecidableEq, Repr

/-- What the operand resolver hands to the executor (00_scope.md R11). -/
inductive Operand
  | none
  | value (b : Byte)
  | address (a : Word)
  deriving DecidableEq, Repr

/-- One constructor per row of spec/opcode_table.json (30_encoding.md R93), with the operand bytes of its format
(R91): a word is its two bytes, low byte first in memory. -/
inductive Instr
  /-- 0x20 JSR abs (R192). -/
  | jsr (ea : Word)
  /-- 0x21 AND (zp,X) (R172). -/
  | andIndX (zp : Byte)
  /-- 0x4C JMP abs (R191). -/
  | jmp (ea : Word)
  /-- 0x78 SEI (R141). -/
  | sei
  /-- 0x88 DEY (R171). -/
  | dey
  /-- 0x8D STA abs (R154). -/
  | sta (ea : Word)
  /-- 0x9A TXS (R155). -/
  | txs
  /-- 0xA0 LDY #imm (R153). -/
  | ldyImm (imm : Byte)
  /-- 0xA2 LDX #imm (R152). -/
  | ldxImm (imm : Byte)
  /-- 0xA9 LDA #imm (R150). -/
  | ldaImm (imm : Byte)
  /-- 0xBD LDA abs,X (R151); `base` is the address before X is added. -/
  | ldaAbsX (base : Word)
  /-- 0xD0 BNE rel (R190); `off` is the signed offset byte. -/
  | bne (off : Byte)
  /-- 0xE8 INX (R170). -/
  | inx
  deriving DecidableEq, Repr

end Sys2Proof
end

