-- ==== Sys2Proof/Machine/State.lean ====
section
/-! DEFINITION. The state of the CORE as plain data: everything 10_state.md gives the machine (R20 to R39), the
reasons a step can stop, and the state after reset (R41). -/

namespace Sys2Proof.Machine

/-- A pixel event `(x, y, rgba)` (48_ppu_renderer.md R221). -/
structure Pixel where
  x    : Nat
  y    : Nat
  rgba : Rgba
  deriving DecidableEq, Repr

/-- Everything the PPU alone writes (48_ppu_renderer.md R231): timing (10_state.md R36), tile shift state (R37) and
the pixels emitted so far, oldest first (R39). -/
structure Ppu where
  /-- -1 is pre-render, 0 to 239 visible, 240 post-render, 241 to 260 vblank. -/
  scanline  : Int
  /-- 0 to 340. -/
  cycle     : Nat
  patHi     : BitVec 16
  patLo     : BitVec 16
  attrLatch : Byte
  pixels    : List Pixel
  deriving DecidableEq, Repr

/-- The cause of a CPU fault (60_exceptions.md R260). -/
inductive Cause
  /-- The opcode byte is not in the decode table; `pc` is its address. -/
  | unknownOpcode (byte : Byte) (pc : Word)
  /-- The resolver met a (mode, index) pair it does not accept (40_pipeline_addressing.md R114; unreachable). -/
  | unsupportedAddressingMode (mode : Mode) (mnemonic : Mnemonic)
  /-- The executor met an operand shape it does not accept (40_pipeline_addressing.md R120; unreachable). -/
  | invalidOperandShape (mnemonic : Mnemonic) (operand : Operand)
  /-- An instruction byte would be fetched from the port address `pc` (20_memory.md R59). -/
  | portFetch (pc : Word)
  deriving DecidableEq, Repr

/-- The CPU register file, as a fault record keeps it (60_exceptions.md R264). -/
structure Registers where
  a  : Byte
  x  : Byte
  y  : Byte
  pc : Word
  sp : Byte
  p  : Byte
  deriving DecidableEq, Repr

/-- A fault record `(cause, snap)` (60_exceptions.md R264). -/
structure FaultRecord where
  cause : Cause
  snap  : Registers
  deriving DecidableEq, Repr

/-- The machine's state (10_state.md). -/
structure State where
  /-- Accumulator (R20). -/
  a      : Byte
  /-- Index register X (R21). -/
  x      : Byte
  /-- Index register Y (R22). -/
  y      : Byte
  /-- Stack pointer (R24). -/
  sp     : Byte
  /-- Status register, N V - B D I Z C from bit 7 down (R25). -/
  p      : Byte
  /-- Program counter (R23). -/
  pc     : Word
  /-- AddressSpace `M` (R31); `ctrl` is `M[0x2000]` (R35). -/
  mem    : Memory
  /-- VRam `V` (R32). -/
  vram   : Memory
  /-- Current VRAM address (R33). -/
  cur    : Scroll
  /-- Temporary VRAM address (R33). -/
  tmp    : Scroll
  /-- `fine_x` (R34). -/
  fineX  : BitVec 3
  /-- The write toggle; `false` is the first-write state (R34). -/
  toggle : Bool
  /-- The PPU's own state (R36, R37, R39). -/
  ppu    : Ppu
  /-- The CPU fault record, `none` while the machine runs (R38). -/
  halted : Option FaultRecord
  deriving DecidableEq, Repr

/-- Why the machine stops. -/
inductive Fault
  /-- Raised by step in a state whose `halted` is set: a halted CPU has no step and the scheduler has stopped both
  units (10_state.md R38; 60_exceptions.md R265, R279). The fault itself was taken by the step before, as a next
  state (log 4). Safe: the spec gives a halted machine no further step. -/
  | halted (record : FaultRecord)
  deriving DecidableEq, Repr

/-- Why an instruction has no meaning. -/
inductive Refusal
  /-- Raised by an arm of exec whose instruction has no meaning yet; no arm raises it. Safe: the machine stops. -/
  | notModelled (mnemonic : String)
  deriving DecidableEq, Repr

/-- The three outcomes of a step of this machine. -/
abbrev Result := Host.Outcome State Fault Refusal

/-- The open power-on parameters `INIT_*` of 00_scope.md R7. INIT_MEM and INIT_VRAM are given as memories, which
can list any contents (log 2). -/
structure InitValues where
  a         : Byte
  x         : Byte
  y         : Byte
  sp        : Byte
  p         : Byte
  mem       : Memory
  vram      : Memory
  cur       : Scroll
  tmp       : Scroll
  fineX     : BitVec 3
  patHi     : BitVec 16
  patLo     : BitVec 16
  attrLatch : Byte
  deriving DecidableEq, Repr

/-- The parameter values that State.reset takes: all zero. DESIGN CHOICE (log 1, log 2), unsafe. -/
def InitValues.zero : InitValues where
  a := 0
  x := 0
  y := 0
  sp := 0
  p := 0
  mem := []
  vram := []
  cur := 0
  tmp := 0
  fineX := 0
  patHi := 0
  patLo := 0
  attrLatch := 0

/-- The power-on state over given memories (10_state.md R41): PC from the reset vector, toggle false, PPU at
(-1, 0), not halted, no pixels; the rest from the parameters. -/
def powerOn (init : InitValues) (mem vram : Memory) : State where
  a := init.a
  x := init.x
  y := init.y
  sp := init.sp
  p := init.p
  pc := resetVector mem
  mem := mem
  vram := vram
  cur := init.cur
  tmp := init.tmp
  fineX := init.fineX
  toggle := false
  ppu :=
    { scanline := -1, cycle := 0, patHi := init.patHi, patLo := init.patLo, attrLatch := init.attrLatch,
      pixels := [] }
  halted := none

/-- The machine right after reset, with nothing placed in memory (log 3): 10_state.md R41 with the parameters at
zero. -/
def State.reset : State := powerOn InitValues.zero [] []

end Sys2Proof.Machine
end

