-- ==== Sys2Proof/Machine/Flags.lean ====
section
/-! DEFINITION. The status flags: their places in P (10_state.md R25) and every flag computation the spec gives
(41_status_flags.md R140, R141). -/

namespace Sys2Proof.Machine

/-- The seven flags of P (10_state.md R25). -/
inductive Flag
  | c | z | i | d | b | v | n
  deriving DecidableEq, Repr

/-- A flag's bit of P (10_state.md R25); bit 5 is no flag. -/
def Flag.bit : Flag → Nat
  | .c => 0
  | .z => 1
  | .i => 2
  | .d => 3
  | .b => 4
  | .v => 6
  | .n => 7

/-- Read a flag. -/
def State.flag (s : State) (f : Flag) : Bool := s.p.getLsbD f.bit

/-- Write one flag of a status byte; its other bits stay. -/
def setFlag (p : Byte) (f : Flag) (on : Bool) : Byte :=
  if on then p ||| (1#8 <<< f.bit) else p &&& ~~~(1#8 <<< f.bit)

/-- `SetNZ(v)` on a status byte (41_status_flags.md R140): Z iff v = 0, N from bit 7. -/
def setNZ (p v : Byte) : Byte := setFlag (setFlag p .z (v == 0#8)) .n (v.getLsbD 7)

end Sys2Proof.Machine
end

