-- ==== Sys2Proof/Machine/Ops.lean ====
section
/-! DEFINITION. The named operations over registers, memory and ports: register writes, the access primitives
Fetch, MemRead and MemWrite with the port bus (20_memory.md R58 to R70), the stack (R71 to R74), and taking a
fault (60_exceptions.md R264). -/

namespace Sys2Proof.Machine

/-! ### One update per register -/

def State.setA (s : State) (v : Byte) : State := { s with a := v }
def State.setX (s : State) (v : Byte) : State := { s with x := v }
def State.setY (s : State) (v : Byte) : State := { s with y := v }
def State.setSp (s : State) (v : Byte) : State := { s with sp := v }
def State.setP (s : State) (v : Byte) : State := { s with p := v }
def State.setPc (s : State) (v : Word) : State := { s with pc := v }
def State.setCur (s : State) (v : Scroll) : State := { s with cur := v }
def State.setTmp (s : State) (v : Scroll) : State := { s with tmp := v }
def State.setFineX (s : State) (v : BitVec 3) : State := { s with fineX := v }
def State.setToggle (s : State) (v : Bool) : State := { s with toggle := v }
def State.setPpu (s : State) (v : Ppu) : State := { s with ppu := v }
def State.setHalted (s : State) (v : Option FaultRecord) : State := { s with halted := v }

/-- `SetNZ(v)` (41_status_flags.md R140). -/
def State.setNZ (s : State) (v : Byte) : State := s.setP (Machine.setNZ s.p v)

/-- PC past `n` more instruction bytes, modulo 2^16 (10_state.md R23). -/
def State.advancePc (s : State) (n : Nat) : State := s.setPc (s.pc + BitVec.ofNat 16 n)

/-! ### Raw store access: `M[a]` and `V[a]` (00_scope.md R9, 20_memory.md R58) -/

/-- `M[a]`, with no side effect. -/
def State.load (s : State) (a : Word) : Byte := s.mem.read a.toNat

/-- `M[a] <- v`, with no side effect. -/
def State.store (s : State) (a : Word) (v : Byte) : State := { s with mem := s.mem.write a.toNat v }

/-- `VRead(a)` (20_memory.md R58). -/
def State.vload (s : State) (a : VIndex) : Byte := s.vram.read a.toNat

/-- `VWrite(a, v)` (20_memory.md R58). -/
def State.vstore (s : State) (a : VIndex) (v : Byte) : State := { s with vram := s.vram.write a.toNat v }

/-- `ctrl`, the byte last written to 0x2000 (10_state.md R35). -/
def State.ctrl (s : State) : Byte := s.load 0x2000#16

/-- `cur & 0x3FFF` as a VRam index (20_memory.md R58, R67). -/
def State.vindex (s : State) : VIndex := s.cur.setWidth 14

/-! ### The port bus (20_memory.md R62 to R70) -/

/-- `PORTS` (20_memory.md R62). -/
def ports : List Word := [0x2000#16, 0x2002#16, 0x2005#16, 0x2006#16, 0x2007#16]

/-- Whether an address is a port. -/
def isPort (a : Word) : Bool := ports.contains a

/-- `inc()`: 32 if bit 2 of `ctrl` is set, else 1 (20_memory.md R67). -/
def State.increment (s : State) : Scroll := if s.ctrl.getLsbD 2 then 32#15 else 1#15

/-- `cur <- cur + inc()`, modulo 2^15 (20_memory.md R67). -/
def State.advanceCur (s : State) : State := s.setCur (s.cur + s.increment)

/-- Write to 0x2000 (20_memory.md R63): `tmp[11:10] <- v & 0b11`. -/
def State.portWrite2000 (s : State) (v : Byte) : State := s.setTmp (setField s.tmp 10 2 v)

/-- Write to 0x2005 (20_memory.md R65): the scroll pair. -/
def State.portWrite2005 (s : State) (v : Byte) : State :=
  (if s.toggle then s.setTmp (setField (setField s.tmp 12 3 v) 5 5 (v >>> 3))
   else (s.setFineX (v.setWidth 3)).setTmp (setField s.tmp 0 5 (v >>> 3))).setToggle (!s.toggle)

/-- Write to 0x2006 (20_memory.md R66): the address pair. -/
def State.portWrite2006 (s : State) (v : Byte) : State :=
  (if s.toggle then (s.setTmp (setField s.tmp 0 8 v)).setCur (setField s.tmp 0 8 v)
   else s.setTmp (setField (setField s.tmp 8 6 v) 14 1 0#8)).setToggle (!s.toggle)

/-- Write to 0x2007 (20_memory.md R67): VRam at the old `cur`, then the increment. -/
def State.portWrite2007 (s : State) (v : Byte) : State := (s.vstore s.vindex v).advanceCur

/-- The port effect of a write, before its byte is stored; none at a plain address and none at 0x2002
(20_memory.md R61, R64). -/
def State.portWrite (s : State) (a : Word) (v : Byte) : State :=
  if a = 0x2000#16 then s.portWrite2000 v
  else if a = 0x2005#16 then s.portWrite2005 v
  else if a = 0x2006#16 then s.portWrite2006 v
  else if a = 0x2007#16 then s.portWrite2007 v
  else s

/-! ### Access primitives -/

/-- `MemWrite(addr, 1, v)` (20_memory.md R61): the port effect, then the byte. -/
def State.memWrite (s : State) (a : Word) (v : Byte) : State := (s.portWrite a v).store a v

/-- The byte a `MemRead(addr, 1)` returns (20_memory.md R60): the VRam byte at 0x2007, else the stored byte. -/
def State.readByte (s : State) (a : Word) : Byte := if a = 0x2007#16 then s.vload s.vindex else s.load a

/-- The state after a `MemRead(addr, 1)` (20_memory.md R60): 0x2002 clears the toggle, 0x2007 moves `cur`. -/
def State.afterRead (s : State) (a : Word) : State :=
  if a = 0x2002#16 then s.setToggle false
  else if a = 0x2007#16 then s.advanceCur
  else s

/-- `MemRead(addr, 1)` (20_memory.md R60). -/
def State.memRead (s : State) (a : Word) : Byte × State := (s.readByte a, s.afterRead a)

/-- `Fetch(addr)` (20_memory.md R59): never a side effect, and a port is refused. -/
def State.fetch (s : State) (a : Word) : Except Cause Byte :=
  if isPort a then .error (.portFetch a) else .ok (s.load a)

/-! ### The stack (20_memory.md R71 to R74) -/

/-- The stack byte that SP designates, `0x0100 + SP` (20_memory.md R71). -/
def State.stackAddress (s : State) : Word := 0x0100#16 + zext16 s.sp

/-- `Push(v)` (20_memory.md R72): the write, then `SP - 1` modulo 256. -/
def State.push (s : State) (v : Byte) : State :=
  let t := s.memWrite s.stackAddress v
  t.setSp (t.sp - 1#8)

/-- `Pull()` (20_memory.md R73): defined for completeness; no admitted instruction uses it. -/
def State.pull (s : State) : Byte × State :=
  let t := s.setSp (s.sp + 1#8)
  t.memRead t.stackAddress

/-! ### Taking a fault (40_pipeline_addressing.md R111; 60_exceptions.md R264, R265) -/

/-- The register file as a fault record keeps it. -/
def State.registers (s : State) : Registers := ⟨s.a, s.x, s.y, s.pc, s.sp, s.p⟩

/-- `raise`: the faulting step's whole effect on the state it began in is `halted <- (cause, snap)`. Nothing is
pushed, no vector is read, and no return exists (60_exceptions.md R270). -/
def State.raise (s : State) (c : Cause) : State := s.setHalted (some ⟨c, s.registers⟩)

end Sys2Proof.Machine
end

