-- ==== Sys2Proof/Machine/Operands.lean ====
section
/-! DEFINITION. The operand resolver, one definition per addressing mode (40_pipeline_addressing.md R112 to R118),
and the value of an operand (R121). Each takes the operand bytes of the decoded instruction and a state whose PC
is past the opcode byte, and moves PC past the operand bytes. -/

namespace Sys2Proof.Machine

/-- The (mode, index) pairs the resolver accepts (40_pipeline_addressing.md R114). -/
def resolverAccepts : Mode → Option Index → Bool
  | .implied, .none => true
  | .immediate, .none => true
  | .absolute, .none => true
  | .absolute, .some .x => true
  | .relative, .none => true
  | .indexedIndirect, .some .x => true
  | _, _ => false

/-- Whether a mnemonic needs a value (40_pipeline_addressing.md R121). -/
def needsValue : Mnemonic → Bool
  | .lda => true
  | .ldx => true
  | .ldy => true
  | .and => true
  | _ => false

/-- An operand and the state in which it was resolved. -/
abbrev Resolved := Operand × State

/-- Implied (R112). -/
def resolveImplied (s : State) : Resolved := (.none, s)

/-- Immediate (R113). -/
def resolveImmediate (imm : Byte) (s : State) : Resolved := (.value imm, s.advancePc 1)

/-- Absolute (R115): no data memory is read. -/
def resolveAbsolute (ea : Word) (s : State) : Resolved := (.address ea, s.advancePc 2)

/-- The effective address of Absolute+X, modulo 2^16 (R116). -/
def State.absoluteX (s : State) (base : Word) : Word := base + zext16 s.x

/-- Absolute+X (R116). -/
def resolveAbsoluteX (base : Word) (s : State) : Resolved := (.address (s.absoluteX base), s.advancePc 2)

/-- The branch target from the offset byte's own address (R117), modulo 2^16. -/
def branchTarget (offAddress : Word) (off : Byte) : Word := offAddress + 1#16 + sext16 off

/-- Relative (R117): the target is computed whether or not the branch is taken. -/
def resolveRelative (off : Byte) (s : State) : Resolved := (.address (branchTarget s.pc off), s.advancePc 1)

/-- The zero-page address of (zp,X), modulo 256 (R118). -/
def State.zeroPage (s : State) (zp : Byte) : Byte := zp + s.x

/-- IndexedIndirect (R118): the pointer's low byte, then its high byte from the next zero-page byte, then the value
if the mnemonic needs one. -/
def resolveIndexedIndirect (m : Mnemonic) (zp : Byte) (s : State) : Resolved :=
  let s0 := s.advancePc 1
  let z := s0.zeroPage zp
  let lo := s0.memRead (zext16 z)
  let hi := lo.2.memRead (zext16 (z + 1#8))
  let ptr := wordOf hi.1 lo.1
  if needsValue m then
    let v := hi.2.memRead ptr
    (.value v.1, v.2)
  else (.address ptr, hi.2)

/-- The pointer of (zp,X) as it stands in the zero page (R118). -/
def State.pointer (s : State) (zp : Byte) : Word :=
  wordOf (s.load (zext16 (s.zeroPage zp + 1#8))) (s.load (zext16 (s.zeroPage zp)))

/-- `operand_value` (R121): the value itself, or exactly one read with its port side effects; `none` has no
value. -/
def operandValue (o : Operand) (s : State) : Option (Byte × State) :=
  match o with
  | .value b => some (b, s)
  | .address a => some (s.memRead a)
  | .none => Option.none

/-- An executor's answer: the state it leaves, or the cause of a fault. -/
abbrev Executed := Except Cause State

/-- The end of a CPU step (40_pipeline_addressing.md R110, R111) that began in `s`: the executor runs on the
resolved operand; a fault discards everything else the step did. -/
def finish (s : State) (executor : Operand → State → Executed) (r : Resolved) : Result :=
  match executor r.1 r.2 with
  | .ok t => .next t
  | .error c => .next (s.raise c)

end Sys2Proof.Machine
end

