-- ==== Sys2Proof/Machine/ArithLogic.lean ====
section
/-! DEFINITION. Increment, decrement and logic (43_arith_logic.md). All arithmetic is on 8-bit values modulo 256;
C and V are never written. -/

namespace Sys2Proof.Machine

/-- INX: `X <- X + 1 (mod 256); SetNZ(X)` (R170). -/
def executeInx (o : Operand) (s : State) : Executed :=
  match o with
  | .none => .ok ((s.setX (s.x + 1#8)).setNZ (s.x + 1#8))
  | o => .error (.invalidOperandShape .inx o)

/-- DEY: `Y <- Y - 1 (mod 256); SetNZ(Y)` (R171). -/
def executeDey (o : Operand) (s : State) : Executed :=
  match o with
  | .none => .ok ((s.setY (s.y - 1#8)).setNZ (s.y - 1#8))
  | o => .error (.invalidOperandShape .dey o)

/-- AND: `A <- A & m; SetNZ(A)` (R172). -/
def executeAnd (o : Operand) (s : State) : Executed :=
  match operandValue o s with
  | some (m, t) => .ok ((t.setA (t.a &&& m)).setNZ (t.a &&& m))
  | none => .error (.invalidOperandShape .and o)

/-- INX, 0xE8 (R170). -/
def execInx (s : State) : Result :=
  finish s executeInx (resolveImplied (s.advancePc 1))

/-- DEY, 0x88 (R171). -/
def execDey (s : State) : Result :=
  finish s executeDey (resolveImplied (s.advancePc 1))

/-- AND (zp,X), 0x21 (R172). -/
def execAndIndX (zp : Byte) (s : State) : Result :=
  finish s executeAnd (resolveIndexedIndirect .and zp (s.advancePc 1))

end Sys2Proof.Machine
end

