-- ==== Sys2Proof/Machine/ControlTransfer.lean ====
section
/-! DEFINITION. Control transfer (44_control_transfer.md) and the status-flag instruction SEI
(41_status_flags.md). When an executor starts, PC is the address of the next instruction in sequence
(40_pipeline_addressing.md R122). -/

namespace Sys2Proof.Machine

/-- SEI: `P.I <- 1`, no other flag (R141). -/
def executeSei (o : Operand) (s : State) : Executed :=
  match o with
  | .none => .ok (s.setP (setFlag s.p .i true))
  | o => .error (.invalidOperandShape .sei o)

/-- BNE: `if P.Z = 0 then PC <- target` (R190). -/
def executeBne (o : Operand) (s : State) : Executed :=
  match o with
  | .address target => .ok (s.setPc (if s.flag .z then s.pc else target))
  | o => .error (.invalidOperandShape .bne o)

/-- JMP: `PC <- ea` (R191). -/
def executeJmp (o : Operand) (s : State) : Executed :=
  match o with
  | .address ea => .ok (s.setPc ea)
  | o => .error (.invalidOperandShape .jmp o)

/-- JSR: push the high byte, then the low byte, of PC - 1; then `PC <- ea` (R192). -/
def executeJsr (o : Operand) (s : State) : Executed :=
  match o with
  | .address ea => .ok (((s.push (hiByte (s.pc - 1#16))).push (loByte (s.pc - 1#16))).setPc ea)
  | o => .error (.invalidOperandShape .jsr o)

/-- SEI, 0x78 (R141). -/
def execSei (s : State) : Result :=
  finish s executeSei (resolveImplied (s.advancePc 1))

/-- BNE rel, 0xD0 (R190). -/
def execBne (off : Byte) (s : State) : Result :=
  finish s executeBne (resolveRelative off (s.advancePc 1))

/-- JMP abs, 0x4C (R191). -/
def execJmp (ea : Word) (s : State) : Result :=
  finish s executeJmp (resolveAbsolute ea (s.advancePc 1))

/-- JSR abs, 0x20 (R192). -/
def execJsr (ea : Word) (s : State) : Result :=
  finish s executeJsr (resolveAbsolute ea (s.advancePc 1))

end Sys2Proof.Machine
end

