-- ==== Sys2Proof/Machine/LoadStoreTransfer.lean ====
section
/-! DEFINITION. Loads, stores and transfer (42_load_store_transfer.md): the executors with their operand-shape
checks (40_pipeline_addressing.md R120), and the meaning of each instruction. -/

namespace Sys2Proof.Machine

/-- LDA: `A <- value; SetNZ(A)` (R150, R151). -/
def executeLda (o : Operand) (s : State) : Executed :=
  match operandValue o s with
  | some (b, t) => .ok ((t.setA b).setNZ b)
  | none => .error (.invalidOperandShape .lda o)

/-- LDX: `X <- value; SetNZ(X)` (R152). -/
def executeLdx (o : Operand) (s : State) : Executed :=
  match operandValue o s with
  | some (b, t) => .ok ((t.setX b).setNZ b)
  | none => .error (.invalidOperandShape .ldx o)

/-- LDY: `Y <- value; SetNZ(Y)` (R153). -/
def executeLdy (o : Operand) (s : State) : Executed :=
  match operandValue o s with
  | some (b, t) => .ok ((t.setY b).setNZ b)
  | none => .error (.invalidOperandShape .ldy o)

/-- STA: `MemWrite(ea, 1, A)`; errors if the operand is not an Address (R154). -/
def executeSta (o : Operand) (s : State) : Executed :=
  match o with
  | .address ea => .ok (s.memWrite ea s.a)
  | o => .error (.invalidOperandShape .sta o)

/-- TXS: `SP <- X`, no flag changed (R155). -/
def executeTxs (o : Operand) (s : State) : Executed :=
  match o with
  | .none => .ok (s.setSp s.x)
  | o => .error (.invalidOperandShape .txs o)

/-- LDA #imm, 0xA9 (R150). -/
def execLdaImm (imm : Byte) (s : State) : Result :=
  finish s executeLda (resolveImmediate imm (s.advancePc 1))

/-- LDA abs,X, 0xBD (R151). -/
def execLdaAbsX (base : Word) (s : State) : Result :=
  finish s executeLda (resolveAbsoluteX base (s.advancePc 1))

/-- LDX #imm, 0xA2 (R152). -/
def execLdxImm (imm : Byte) (s : State) : Result :=
  finish s executeLdx (resolveImmediate imm (s.advancePc 1))

/-- LDY #imm, 0xA0 (R153). -/
def execLdyImm (imm : Byte) (s : State) : Result :=
  finish s executeLdy (resolveImmediate imm (s.advancePc 1))

/-- STA abs, 0x8D (R154). -/
def execSta (ea : Word) (s : State) : Result :=
  finish s executeSta (resolveAbsolute ea (s.advancePc 1))

/-- TXS, 0x9A (R155). -/
def execTxs (s : State) : Result :=
  finish s executeTxs (resolveImplied (s.advancePc 1))

end Sys2Proof.Machine
end

