-- ==== Sys2Proof/Machine/Dispatch.lean ====
section
/-! DEFINITION. Executor dispatch (40_pipeline_addressing.md R110, R120): one arm per row of the decode table. The
state is the one the CPU step began in, with PC at the opcode byte; the meaning moves PC past the instruction. -/

namespace Sys2Proof.Machine

def exec (i : Instr) (s : State) : Host.Outcome State Fault Refusal :=
  match i with
  | .jsr ea => Sys2Proof.Machine.execJsr ea s
  | .andIndX zp => Sys2Proof.Machine.execAndIndX zp s
  | .jmp ea => Sys2Proof.Machine.execJmp ea s
  | .sei => Sys2Proof.Machine.execSei s
  | .dey => Sys2Proof.Machine.execDey s
  | .sta ea => Sys2Proof.Machine.execSta ea s
  | .txs => Sys2Proof.Machine.execTxs s
  | .ldyImm imm => Sys2Proof.Machine.execLdyImm imm s
  | .ldxImm imm => Sys2Proof.Machine.execLdxImm imm s
  | .ldaImm imm => Sys2Proof.Machine.execLdaImm imm s
  | .ldaAbsX base => Sys2Proof.Machine.execLdaAbsX base s
  | .bne off => Sys2Proof.Machine.execBne off s
  | .inx => Sys2Proof.Machine.execInx s

end Sys2Proof.Machine
end

