-- ==== Sys2Proof/WellFormed.lean ====
section
/-! DEFINITION. Which (mnemonic, mode, index, operand bytes) are an instruction of this hardware
(30_encoding.md R91, R93; 40_pipeline_addressing.md R114). Operand bytes themselves are never checked (R98). -/

namespace Sys2Proof

/-- How many operand bytes a mode has (30_encoding.md R91). -/
def Mode.operandBytes : Mode → Nat
  | .implied => 0
  | .immediate => 1
  | .absolute => 2
  | .relative => 1
  | .indexedIndirect => 1

/-- An instruction written out: its triple and its operand bytes, lowest address first. -/
structure Form where
  decoded  : Decoded
  operands : List Byte
  deriving DecidableEq, Repr

/-- The thirteen triples of the decode table (30_encoding.md R93). -/
def Decoded.admitted (d : Decoded) : Bool :=
  match d.mnemonic, d.mode, d.index with
  | .sei, .implied, .none => true
  | .txs, .implied, .none => true
  | .inx, .implied, .none => true
  | .dey, .implied, .none => true
  | .lda, .immediate, .none => true
  | .ldx, .immediate, .none => true
  | .ldy, .immediate, .none => true
  | .lda, .absolute, .some .x => true
  | .sta, .absolute, .none => true
  | .jmp, .absolute, .none => true
  | .jsr, .absolute, .none => true
  | .bne, .relative, .none => true
  | .and, .indexedIndirect, .some .x => true
  | _, _, _ => false

/-- Well-formed: an admitted triple with exactly its mode's operand bytes. -/
def Form.wellFormed (f : Form) : Bool :=
  f.decoded.admitted && f.operands.length == f.decoded.mode.operandBytes

/-- The written-out form of an instruction. -/
def Instr.form : Instr → Form
  | .jsr ea => ⟨⟨.jsr, .absolute, .none⟩, [loByte ea, hiByte ea]⟩
  | .andIndX zp => ⟨⟨.and, .indexedIndirect, .some .x⟩, [zp]⟩
  | .jmp ea => ⟨⟨.jmp, .absolute, .none⟩, [loByte ea, hiByte ea]⟩
  | .sei => ⟨⟨.sei, .implied, .none⟩, []⟩
  | .dey => ⟨⟨.dey, .implied, .none⟩, []⟩
  | .sta ea => ⟨⟨.sta, .absolute, .none⟩, [loByte ea, hiByte ea]⟩
  | .txs => ⟨⟨.txs, .implied, .none⟩, []⟩
  | .ldyImm imm => ⟨⟨.ldy, .immediate, .none⟩, [imm]⟩
  | .ldxImm imm => ⟨⟨.ldx, .immediate, .none⟩, [imm]⟩
  | .ldaImm imm => ⟨⟨.lda, .immediate, .none⟩, [imm]⟩
  | .ldaAbsX base => ⟨⟨.lda, .absolute, .some .x⟩, [loByte base, hiByte base]⟩
  | .bne off => ⟨⟨.bne, .relative, .none⟩, [off]⟩
  | .inx => ⟨⟨.inx, .implied, .none⟩, []⟩

/-- Every instruction of this hardware is well-formed (Laws/PerInstr.lean): its operand fields are typed by
their widths, and no operand value is checked (30_encoding.md R98). -/
def Instr.wellFormed (i : Instr) : Bool := i.form.wellFormed

end Sys2Proof
end

