-- ==== Sys2Proof/Decode.lean ====
section
/-! DEFINITION. The decode table of 30_encoding.md R93, the decoder (total; every other byte is rejected by name,
R97) and the encoder. -/

namespace Sys2Proof

/-- How a row's operand bytes become its instruction (30_encoding.md R91, R96). -/
inductive Builder
  /-- One byte, no operand. -/
  | plain (i : Instr)
  /-- One operand byte. -/
  | ofByte (f : Byte → Instr)
  /-- Two operand bytes, low then high. -/
  | ofWord (f : Word → Instr)

/-- How many operand bytes a builder takes. -/
def Builder.operandBytes : Builder → Nat
  | .plain _ => 0
  | .ofByte _ => 1
  | .ofWord _ => 2

/-- A row of the decode table. -/
structure Row where
  opcode  : Byte
  decoded : Decoded
  build   : Builder

/-- The decode table (30_encoding.md R93), in its own order. -/
def decodeTable : List Row :=
  [ ⟨0x20#8, ⟨.jsr, .absolute, .none⟩, .ofWord .jsr⟩,
    ⟨0x21#8, ⟨.and, .indexedIndirect, .some .x⟩, .ofByte .andIndX⟩,
    ⟨0x4C#8, ⟨.jmp, .absolute, .none⟩, .ofWord .jmp⟩,
    ⟨0x78#8, ⟨.sei, .implied, .none⟩, .plain .sei⟩,
    ⟨0x88#8, ⟨.dey, .implied, .none⟩, .plain .dey⟩,
    ⟨0x8D#8, ⟨.sta, .absolute, .none⟩, .ofWord .sta⟩,
    ⟨0x9A#8, ⟨.txs, .implied, .none⟩, .plain .txs⟩,
    ⟨0xA0#8, ⟨.ldy, .immediate, .none⟩, .ofByte .ldyImm⟩,
    ⟨0xA2#8, ⟨.ldx, .immediate, .none⟩, .ofByte .ldxImm⟩,
    ⟨0xA9#8, ⟨.lda, .immediate, .none⟩, .ofByte .ldaImm⟩,
    ⟨0xBD#8, ⟨.lda, .absolute, .some .x⟩, .ofWord .ldaAbsX⟩,
    ⟨0xD0#8, ⟨.bne, .relative, .none⟩, .ofByte .bne⟩,
    ⟨0xE8#8, ⟨.inx, .implied, .none⟩, .plain .inx⟩ ]

/-- The row of an opcode byte; `none` is Unknown (30_encoding.md R94). -/
def lookup (op : Byte) : Option Row := decodeTable.find? (fun r => r.opcode == op)

/-- `decode : u8 -> (mnemonic, mode, index) or Unknown` (30_encoding.md R93). -/
def decodeOpcode (op : Byte) : Option Decoded := (lookup op).map Row.decoded

/-- Why bytes do not decode. -/
inductive DecodeError
  /-- No byte was given. -/
  | noBytes
  /-- The opcode byte is not in the table (30_encoding.md R97). -/
  | unknownOpcode (op : Byte)
  /-- The bytes end inside the instruction. -/
  | truncated (op : Byte)
  deriving DecidableEq, Repr

/-- The decoder over a byte string, lowest address first: the instruction and the bytes after it. -/
def decode : List Byte → Except DecodeError (Instr × List Byte)
  | [] => .error .noBytes
  | op :: rest =>
    match lookup op with
    | none => .error (.unknownOpcode op)
    | some row =>
      match row.build, rest with
      | .plain i, rest => .ok (i, rest)
      | .ofByte f, b :: rest => .ok (f b, rest)
      | .ofWord f, lo :: hi :: rest => .ok (f (wordOf hi lo), rest)
      | _, _ => .error (.truncated op)

/-- The opcode byte of an instruction (30_encoding.md R93). -/
def Instr.opcode : Instr → Byte
  | .jsr _ => 0x20#8
  | .andIndX _ => 0x21#8
  | .jmp _ => 0x4C#8
  | .sei => 0x78#8
  | .dey => 0x88#8
  | .sta _ => 0x8D#8
  | .txs => 0x9A#8
  | .ldyImm _ => 0xA0#8
  | .ldxImm _ => 0xA2#8
  | .ldaImm _ => 0xA9#8
  | .ldaAbsX _ => 0xBD#8
  | .bne _ => 0xD0#8
  | .inx => 0xE8#8

/-- The encoder: the opcode byte, then the operand bytes, low byte of a word first (30_encoding.md R91). -/
def encode (i : Instr) : List Byte :=
  match i with
  | .jsr ea => [i.opcode, loByte ea, hiByte ea]
  | .andIndX zp => [i.opcode, zp]
  | .jmp ea => [i.opcode, loByte ea, hiByte ea]
  | .sei => [i.opcode]
  | .dey => [i.opcode]
  | .sta ea => [i.opcode, loByte ea, hiByte ea]
  | .txs => [i.opcode]
  | .ldyImm imm => [i.opcode, imm]
  | .ldxImm imm => [i.opcode, imm]
  | .ldaImm imm => [i.opcode, imm]
  | .ldaAbsX base => [i.opcode, loByte base, hiByte base]
  | .bne off => [i.opcode, off]
  | .inx => [i.opcode]

/-- An instruction's length in bytes (30_encoding.md R91). -/
def Instr.length (i : Instr) : Nat := (encode i).length

/-- The three bytes (the longest instruction) of a table word of `nbits` bits, first byte lowest; the bits above
`nbits` are zero. -/
def tableBytes (nbits w : Nat) : List Byte :=
  [BitVec.ofNat 8 (w % 2 ^ nbits), BitVec.ofNat 8 (w % 2 ^ nbits / 256),
    BitVec.ofNat 8 (w % 2 ^ nbits / 65536)]

/-- The instruction the decoder reads from a table word. -/
def decodeTableWord (nbits w : Nat) : Option Instr :=
  match decode (tableBytes nbits w) with
  | .ok (i, _) => some i
  | .error _ => none

end Sys2Proof
end

