-- ==== Sys2Proof/Machine/Fetch.lean ====
section
/-! DEFINITION. Fetching an instruction (40_pipeline_addressing.md R110) with the faults of its bytes in the order
of 60_exceptions.md R266, and placing one where it will be fetched. -/

namespace Sys2Proof.Machine

/-- Fetch the opcode byte, decode it, and fetch the operand bytes the mode asks for, each at the next address
modulo 2^16 (30_encoding.md R91). The causes come in the order of 60_exceptions.md R266: PortFetch of the opcode,
UnknownOpcode, UnsupportedAddressingMode, PortFetch of an operand byte. -/
def fetchInstr (s : State) : Except Cause Instr :=
  match s.fetch s.pc with
  | .error c => .error c
  | .ok op =>
    match lookup op with
    | none => .error (.unknownOpcode op s.pc)
    | some row =>
      if resolverAccepts row.decoded.mode row.decoded.index then
        match row.build with
        | .plain i => .ok i
        | .ofByte f =>
          match s.fetch (s.pc + 1#16) with
          | .error c => .error c
          | .ok b => .ok (f b)
        | .ofWord f =>
          match s.fetch (s.pc + 1#16) with
          | .error c => .error c
          | .ok lo =>
            match s.fetch (s.pc + 2#16) with
            | .error c => .error c
            | .ok hi => .ok (f (wordOf hi lo))
      else .error (.unsupportedAddressingMode row.decoded.mode row.decoded.mnemonic)

/-- The three bytes from PC on, where an instruction stands. -/
def State.codeBytes (s : State) : List Byte :=
  [s.load s.pc, s.load (s.pc + 1#16), s.load (s.pc + 2#16)]

/-- Whether no byte of the first `n` from PC on is at a port. -/
def State.fetchable (s : State) (n : Nat) : Bool :=
  (List.range n).all (fun k => !isPort (s.pc + BitVec.ofNat 16 k))

/-- Store the three bytes of a table word where the next step fetches: the machine runs, and PC is moved to
0x8000, the mapped base of PRG, only where one of the three bytes would lie at a port and could not be fetched
(log 13). -/
def State.placeCode (s : State) (bytes : List Byte) : State :=
  let t := (if s.fetchable 3 then s else s.setPc 0x8000#16).setHalted none
  match bytes with
  | [b0, b1, b2] => ((t.store t.pc b0).store (t.pc + 1#16) b1).store (t.pc + 2#16) b2
  | _ => t

end Sys2Proof.Machine
end

