-- ==== Sys2Proof/Machine/Ppu.lean ====
section
/-! DEFINITION. The PPU renderer (48_ppu_renderer.md): one PPU cycle is the action for the current position, then
the timing advance. -/

namespace Sys2Proof.Machine

/-- All that the PPU reads beside its own state (48_ppu_renderer.md R231). -/
structure PpuView where
  cur  : Scroll
  ctrl : Byte
  vram : Memory
  deriving DecidableEq, Repr

/-- What the PPU sees of a state. -/
def State.ppuView (s : State) : PpuView := ⟨s.cur, s.ctrl, s.vram⟩

/-- `VRead` with the 14-bit index mask (20_memory.md R58). -/
def PpuView.vread (v : PpuView) (a : Nat) : Byte := v.vram.read (a % vramSize)

/-! ### Tile fetch (R224 to R226) -/

/-- A fetch position: name table, tile column, tile row, row inside the tile (R224). -/
structure World where
  n  : Nat
  tx : Nat
  ty : Nat
  r  : Nat
  deriving DecidableEq, Repr

/-- `world(m, row)` (R224): the fetch position of slot `m` on screen row `row`. -/
def PpuView.world (v : PpuView) (m row : Nat) : World :=
  let ox := 8 * field v.cur 0 5 + 256 * field v.cur 10 1
  let oy := 8 * field v.cur 5 5 + field v.cur 12 3 + 240 * field v.cur 11 1
  let wx := (ox + 8 * m) % 512
  let wy := (oy + row) % 480
  { n := wx / 256 + 2 * (wy / 240), tx := wx % 256 / 8, ty := wy % 240 / 8, r := wy % 240 % 8 }

/-- `nt_addr` (R225). -/
def World.ntAddr (w : World) : Nat := 0x2000 + 0x400 * w.n + 32 * w.ty + w.tx

/-- `at_addr` (R225). -/
def World.atAddr (w : World) : Nat := 0x2000 + 0x400 * w.n + 0x3C0 + 8 * (w.ty / 4) + w.tx / 4

/-- `attr_byte(m, row)` (R225). -/
def PpuView.attrByte (v : PpuView) (m row : Nat) : Byte := v.vread (v.world m row).atAddr

/-- The address of the low pattern byte of `tile_bytes(m, row)`: the pattern table that bit 4 of `ctrl` selects, the
tile, the row inside it (R226). -/
def PpuView.patternAddr (v : PpuView) (m row : Nat) : Nat :=
  let w := v.world m row
  (if v.ctrl.getLsbD 4 then 0x1000 else 0) + 16 * (v.vread w.ntAddr).toNat + w.r

/-- `lo` of `tile_bytes(m, row)` (R226). -/
def PpuView.tileLo (v : PpuView) (m row : Nat) : Byte := v.vread (v.patternAddr m row)

/-- `hi` of `tile_bytes(m, row)` (R226). -/
def PpuView.tileHi (v : PpuView) (m row : Nat) : Byte := v.vread (v.patternAddr m row + 8)

/-! ### Pixel generation (R220 to R223, R227) -/

/-- `palette_number(a, x, y)` (R223). -/
def paletteNumber (a : Byte) (x y : Nat) : Nat :=
  let q := 2 * (y / 16 % 2) + x / 16 % 2
  (a >>> (2 * q)).toNat % 4

/-- `pattern_bit_pair`: the MSBs of the two shifters (R220). -/
def Ppu.patternPair (p : Ppu) : Nat := 2 * (p.patHi.getLsbD 15).toNat + (p.patLo.getLsbD 15).toNat

/-- The colour number of a palette index: the palette-RAM byte's low six bits (R227). -/
def PpuView.colourNumber (v : PpuView) (idx : Nat) : Fin 64 := Fin.ofNat 64 (v.vread (0x3F00 + idx)).toNat

/-- `colour(idx)` (R227). -/
def PpuView.colour (v : PpuView) (idx : Nat) : Rgba := Config.nesColor (v.colourNumber idx)

/-- The pixel event of a pixel cycle (R220, R221), from the state before the shift. -/
def Ppu.pixel (v : PpuView) (p : Ppu) : Pixel :=
  let x := p.cycle - 1
  let y := p.scanline.toNat
  { x := x, y := y, rgba := v.colour (paletteNumber p.attrLatch x y * 4 + p.patternPair) }

/-- Emit the pixel and shift both shifters left by one (R220). -/
def Ppu.emitAndShift (v : PpuView) (p : Ppu) : Ppu :=
  { p with pixels := p.pixels ++ [p.pixel v], patHi := p.patHi <<< 1, patLo := p.patLo <<< 1 }

/-- `reload(m, y)` (R228): slot m + 1 into the low bytes, slot m's attribute into the latch. -/
def Ppu.reload (v : PpuView) (m y : Nat) (p : Ppu) : Ppu :=
  { p with
    patLo := withLow p.patLo (v.tileLo (m + 1) y)
    patHi := withLow p.patHi (v.tileHi (m + 1) y)
    attrLatch := v.attrByte m y }

/-- `pixel_cycle` (R220): the pixel from the state before the shift, then the shift, then on every 8th cycle the
reload. -/
def Ppu.pixelCycle (v : PpuView) (p : Ppu) : Ppu :=
  let q := p.emitAndShift v
  if p.cycle % 8 = 0 then q.reload v (p.cycle / 8) p.scanline.toNat else q

/-! ### Prefetch (R229) -/

/-- The prefetch of slot 0 of row `row`, at cycle 328 (R229). -/
def Ppu.prefetchFirst (v : PpuView) (row : Nat) (p : Ppu) : Ppu :=
  { p with
    patLo := withHigh p.patLo (v.tileLo 0 row)
    patHi := withHigh p.patHi (v.tileHi 0 row)
    attrLatch := v.attrByte 0 row }

/-- The prefetch of slot 1 of row `row`, at cycle 336 (R229). -/
def Ppu.prefetchSecond (v : PpuView) (row : Nat) (p : Ppu) : Ppu :=
  { p with
    patLo := withLow p.patLo (v.tileLo 1 row)
    patHi := withLow p.patHi (v.tileHi 1 row) }

/-- The prefetch loads of a scanline, for the row after it; every other cycle is idle (R229). -/
def Ppu.prefetch (v : PpuView) (p : Ppu) : Ppu :=
  let row := (p.scanline + 1).toNat
  if p.cycle = 328 then p.prefetchFirst v row
  else if p.cycle = 336 then p.prefetchSecond v row
  else p

/-! ### The step (R210 to R215) -/

/-- A visible scanline, 0 to 239 (R212). -/
def Ppu.visible (p : Ppu) : Bool := decide (0 ≤ p.scanline) && decide (p.scanline ≤ 239)

/-- A pixel cycle, 1 to 256 of a visible scanline (R212, R220). -/
def Ppu.onPixel (p : Ppu) : Bool := p.visible && decide (1 ≤ p.cycle) && decide (p.cycle ≤ 256)

/-- The action of a visible scanline (R212): pixels at cycles 1 to 256, the prefetch later; cycles 0, 257 to 320
and 337 to 340 do nothing (R230). -/
def Ppu.visibleAction (v : PpuView) (p : Ppu) : Ppu := if p.onPixel then p.pixelCycle v else p.prefetch v

/-- The action for the current position (R212 to R214). No vblank flag exists and no interrupt is raised (R215). -/
def Ppu.action (v : PpuView) (p : Ppu) : Ppu :=
  if p.visible then p.visibleAction v
  else if p.scanline = -1 then p.prefetch v
  else p

/-- `advance()` (R211). -/
def Ppu.advance (p : Ppu) : Ppu :=
  if p.cycle + 1 = 341 then
    { p with cycle := 0, scanline := if p.scanline + 1 = 261 then -1 else p.scanline + 1 }
  else { p with cycle := p.cycle + 1 }

/-- `ppu_step`: one PPU cycle (R210). -/
def Ppu.step (v : PpuView) (p : Ppu) : Ppu := (p.action v).advance

/-- `n` PPU cycles under one view: nothing else runs between them (20_memory.md R80). -/
def Ppu.run (v : PpuView) : Nat → Ppu → Ppu
  | 0, p => p
  | n + 1, p => Ppu.run v n (p.step v)

/-- `n` PPU cycles of the machine: only the PPU's own state changes (R231). -/
def State.runPpu (s : State) (n : Nat) : State := s.setPpu (Ppu.run s.ppuView n s.ppu)

end Sys2Proof.Machine
end

