-- ==== Sys2Proof/Machine/Scheduler.lean ====
section
/-! DEFINITION. The scheduler (60_exceptions.md R278, R279): one CPU step, then three PPU cycles per CPU cycle. -/

namespace Sys2Proof.Machine

/-- `taken`: a BNE branches (60_exceptions.md R278); false for every other instruction (log 6). -/
def taken (i : Instr) (s : State) : Bool :=
  match i with
  | .bne _ => !s.flag .z
  | _ => false

/-- `crossed`: an Absolute+X or branch target left the page of its base (60_exceptions.md R278). The base of a branch
is the address after the offset byte; false for every other instruction (log 6). -/
def crossed (i : Instr) (s : State) : Bool :=
  match i with
  | .ldaAbsX base => hiByte (s.absoluteX base) != hiByte base
  | .bne off => hiByte (branchTarget (s.pc + 1#16) off) != hiByte (s.pc + 2#16)
  | _ => false

/-- How many PPU cycles follow an instruction (60_exceptions.md R278). -/
def ppuCyclesAfter (cycles : CycleTable) (i : Instr) (s : State) : Nat :=
  3 * cycles i.opcode (taken i s) (crossed i s)

/-- After the CPU step: PPU cycles, unless the step faulted (60_exceptions.md R278, R279). -/
def afterCpu (n : Nat) : Result → Result
  | .next t => .next (if t.halted.isSome then t else t.runPpu n)
  | .fault r => .fault r
  | .refused r => .refused r

/-- One iteration of `system_run` (60_exceptions.md R278) under a cycle table: a halted machine has no step
(40_pipeline_addressing.md R110); a fault of the fetched bytes is taken; otherwise the instruction runs whole and
its PPU cycles follow. -/
def systemIteration (cycles : CycleTable) (s : State) : Result :=
  match s.halted with
  | some r => .fault (.halted r)
  | none =>
    match fetchInstr s with
    | .error c => .next (s.raise c)
    | .ok i => afterCpu (ppuCyclesAfter cycles i s) (exec i s)

end Sys2Proof.Machine
end

