-- ==== Sys2Proof/Machine/Step.lean ====
section
/-! DEFINITION. One step of the machine: one iteration of the scheduler (60_exceptions.md R278) with the open cycle
table (log 5, log 6). -/

namespace Sys2Proof.Machine

/-- One step: a CPU instruction and the PPU cycles after it, or the taking of a fault. -/
def step (s : State) : Host.Outcome State Fault Refusal := systemIteration Config.cpuCycles s

/-- The state with a table word's instruction stored where step fetches its next instruction. It stands for the
load of a program (log 3). -/
def State.withFetchWord (s : State) (nbits w : Nat) : State := s.placeCode (tableBytes nbits w)

end Sys2Proof.Machine
end

