-- ==== Sys2Proof/Machine/Boot.lean ====
section
/-! DEFINITION. The load contract `initialize(prg, chr)` (70_reset_and_hazards.md R290 to R293), the only way the
hardware starts. -/

namespace Sys2Proof.Machine

/-- The load errors (70_reset_and_hazards.md R290): no state changes and no CPU step can follow. -/
inductive LoadError
  | prgSize
  | chrSize
  deriving DecidableEq, Repr

/-- The size of a PRG bank. -/
def bankSize : Nat := 16384

/-- The largest CHR buffer. -/
def chrLimit : Nat := 8192

/-- The 32 KiB that `place_prg` puts at 0x8000 (70_reset_and_hazards.md R291): one bank twice, or banks 0 and 1. -/
def prgImage (prg : List Byte) : List Byte :=
  if prg.length / bankSize = 1 then prg ++ prg else prg.take (2 * bankSize)

/-- `initialize(prg, chr)` (70_reset_and_hazards.md R290; Lean keeps the bare word for itself), over any values of the open parameters. -/
def initializeCore (init : InitValues) (prg chr : List Byte) : Except LoadError State :=
  if prg.length = 0 ∨ prg.length % bankSize ≠ 0 then .error .prgSize
  else if chrLimit < chr.length then .error .chrSize
  else .ok (powerOn init (init.mem.place 0x8000 (prgImage prg)) (init.vram.place 0 chr))

end Sys2Proof.Machine
end

