-- ==== Sys2Proof/Machine/HostView.lean ====
section
/-! DEFINITION. What the host may read between iterations (60_exceptions.md R283, R284). -/

namespace Sys2Proof.Machine

/-- The diagnostic dump of AddressSpace (60_exceptions.md R284): one byte per address, ascending, read with `M[a]`. -/
def State.dumpAddressSpace (s : State) : List Byte := (List.range addressSpaceSize).map s.mem.read

/-- The diagnostic dump of VRam (60_exceptions.md R284). -/
def State.dumpVRam (s : State) : List Byte := (List.range vramSize).map s.vram.read

end Sys2Proof.Machine
end

