-- ==== Sys2Proof/Safety.lean ====
section
/-! DEFINITION. What counts as a safe run, the invariant of the machine, and the relations between two states in
which the statements about instructions are written. -/

namespace Sys2Proof.Machine

/-! ### Safe runs -/

/-- The machine runs: no fault has been taken (10_state.md R38). -/
abbrev State.Running (s : State) : Prop := s.halted = none

/-- `k` iterations of the scheduler from `s` that take no fault; a run ends in a fault or by a host stop
(60_exceptions.md R287). -/
def SafeRun (k : Nat) (s : State) : Prop := ∃ t, Host.Core.run Sys2Proof.core k s = .next t ∧ t.Running

/-! ### The invariant -/

/-- A legal PPU position, in the ranges of 10_state.md R36. -/
abbrev Ppu.Legal (p : Ppu) : Prop := (-1 ≤ p.scanline ∧ p.scanline ≤ 260) ∧ p.cycle ≤ 340

/-- The PPU's part of the invariant: a legal position, and every pixel on the screen (48_ppu_renderer.md R221). -/
structure Ppu.Inv (p : Ppu) : Prop where
  legal  : p.Legal
  pixels : ∀ e ∈ p.pixels, e.x < 256 ∧ e.y < 240

/-- What a fault record says of the state that holds it: the snapshot is the registers the halted state keeps
(60_exceptions.md R264), and the cause is one of the two that the decode table can reach (R260). -/
def FaultRecord.Fits (r : FaultRecord) (s : State) : Prop :=
  r.snap = s.registers ∧
    ((∃ b, r.cause = .unknownOpcode b s.pc ∧ decodeOpcode b = none) ∨ (∃ a, r.cause = .portFetch a ∧ isPort a = true))

/-- The invariant of the machine: both memories in canonical form and inside their sizes (10_state.md R31, R32), the
PPU's part, and a fault record that fits its state. -/
structure State.Inv (s : State) : Prop where
  mem    : s.mem.wf addressSpaceSize = true
  vram   : s.vram.wf vramSize = true
  ppu    : s.ppu.Inv
  halted : ∀ r, s.halted = some r → r.Fits s

/-! ### Relations between the state before and the state after -/

/-- The status byte after `SetNZ(v)` (41_status_flags.md R140), bit by bit: Z iff v is zero, N is bit 7 of v, every
other bit as before. -/
def NZSet (v p p' : Byte) : Prop :=
  p'.getLsbD 1 = decide (v = 0#8) ∧ p'.getLsbD 7 = v.getLsbD 7 ∧
    ∀ k, k ≠ 1 → k ≠ 7 → p'.getLsbD k = p.getLsbD k

/-- Every byte of AddressSpace reads as before. -/
def SameMem (s t : State) : Prop := ∀ a : Word, t.load a = s.load a

/-- Every byte of VRam reads as before. -/
def SameVRam (s t : State) : Prop := ∀ a : VIndex, t.vload a = s.vload a

/-- The four scroll registers are as before. -/
def SameScroll (s t : State) : Prop :=
  t.cur = s.cur ∧ t.tmp = s.tmp ∧ t.fineX = s.fineX ∧ t.toggle = s.toggle

/-- Everything but the six CPU registers is as before. -/
def SameButRegisters (s t : State) : Prop :=
  SameMem s t ∧ SameVRam s t ∧ SameScroll s t ∧ t.ppu = s.ppu ∧ t.halted = s.halted

/-- `v` is the byte that one `MemRead(a, 1)` in `s` returns, and `t` differs from `s` outside the CPU registers only
by that read's port effect (20_memory.md R60, R64, R67). -/
def ReadsByte (s : State) (a : Word) (v : Byte) (t : State) : Prop :=
  v = (if a = 0x2007#16 then s.vram.read (s.cur.toNat % 0x4000) else s.mem.read a.toNat) ∧
    t.toggle = (if a = 0x2002#16 then false else s.toggle) ∧
    t.cur = (if a = 0x2007#16 then s.cur + (if (s.mem.read 0x2000).getLsbD 2 then 32#15 else 1#15) else s.cur) ∧
    t.tmp = s.tmp ∧ t.fineX = s.fineX ∧ SameMem s t ∧ SameVRam s t ∧ t.ppu = s.ppu ∧ t.halted = s.halted

/-- `t` is `s` after one byte went to `a` as a CPU write: the byte, and nothing else of AddressSpace, of the CPU
registers, of the PPU's own state or of the fault record (20_memory.md R61). -/
def WritesByte (s : State) (a : Word) (v : Byte) (t : State) : Prop :=
  t.load a = v ∧ (∀ b, b ≠ a → t.load b = s.load b) ∧ t.registers = s.registers ∧ t.ppu = s.ppu ∧
    t.halted = s.halted

/-- Bits `hi` to `lo` of a scroll register are the low bits of `v`; every other bit is as before. -/
def FieldSet (r r' : Scroll) (lo hi : Nat) (v : Byte) : Prop :=
  ∀ k, k < 15 → r'.getLsbD k = if lo ≤ k ∧ k ≤ hi then v.getLsbD (k - lo) else r.getLsbD k

/-! ### What an instruction may write -/

/-- The address of the next instruction in sequence (40_pipeline_addressing.md R122). -/
def State.pcAfter (s : State) (i : Instr) : Word := s.pc + BitVec.ofNat 16 i.length

/-- Column A, `w`, of the table of 10_state.md R30. -/
def writesA : Instr → Bool
  | .ldaImm _ | .ldaAbsX _ | .andIndX _ => true
  | _ => false

/-- Column X, `w`, of the table of 10_state.md R30. -/
def writesX : Instr → Bool
  | .ldxImm _ | .inx => true
  | _ => false

/-- Column Y, `w`, of the table of 10_state.md R30. -/
def writesY : Instr → Bool
  | .ldyImm _ | .dey => true
  | _ => false

/-- Column SP, `w`, of the table of 10_state.md R30. -/
def writesSp : Instr → Bool
  | .txs | .jsr _ => true
  | _ => false

/-- Columns P.N and P.Z, `w`, of the table of 10_state.md R30. -/
def writesNZ : Instr → Bool
  | .ldaImm _ | .ldaAbsX _ | .ldxImm _ | .ldyImm _ | .inx | .dey | .andIndX _ => true
  | _ => false

/-- Column P.I, `w`, of the table of 10_state.md R30. -/
def writesI : Instr → Bool
  | .sei => true
  | _ => false

/-- Column PC, `w`, of the table of 10_state.md R30. -/
def writesPc : Instr → Bool
  | .bne _ | .jmp _ | .jsr _ => true
  | _ => false

/-- The AddressSpace addresses an instruction stores to (40_pipeline_addressing.md R119): the effective address of
STA, the two stack bytes of JSR. -/
def storesTo (i : Instr) (s : State) : List Word :=
  match i with
  | .sta ea => [ea]
  | .jsr _ => [s.stackAddress, (s.setSp (s.sp - 1#8)).stackAddress]
  | _ => []

/-- The address whose byte an instruction reads as its value, outside the zero-page pointer reads
(40_pipeline_addressing.md R119). -/
def readsValueAt (i : Instr) (s : State) : Option Word :=
  match i with
  | .ldaAbsX base => some (s.absoluteX base)
  | .andIndX zp => some (s.pointer zp)
  | _ => none

/-! ### The picture -/

/-- A PPU position as a number of cycles from (-1, 0) (48_ppu_renderer.md R211). -/
def Ppu.index (p : Ppu) : Int := (p.scanline + 1) * 341 + p.cycle

/-- The pixel at `(x, y)` read straight from VRam under one view: slot x / 8, its pattern bits at x % 8 from the left,
its attribute field (48_ppu_renderer.md R220, R222, R223, R227). -/
def PpuView.pixelAt (v : PpuView) (x y : Nat) : Pixel :=
  let m := x / 8
  let pair := 2 * ((v.tileHi m y).getLsbD (7 - x % 8)).toNat + ((v.tileLo m y).getLsbD (7 - x % 8)).toNat
  { x := x, y := y, rgba := v.colour (paletteNumber (v.attrByte m y) x y * 4 + pair) }

end Sys2Proof.Machine
end

