-- ==== Sys2Proof/Certificates/Slice0/Obligations.lean ====
section
/-! DEFINITION. The statements for the provers. Each name says what it states; OBLIGATIONS.json gives the rule of
spec/ that each one formalises. -/

open Sys2Proof Sys2Proof.Machine

/-! ### Encoding (30_encoding.md) -/

/-- R93, R94: the thirteen triples with their lengths, and Unknown for every other byte. -/
def Obligations.DecodeTableIsExactlyTheThirteenRows : Prop :=
  let rows : List (Byte × Decoded × Nat) :=
    [(0x20#8, ⟨.jsr, .absolute, none⟩, 3), (0x21#8, ⟨.and, .indexedIndirect, some .x⟩, 2),
     (0x4C#8, ⟨.jmp, .absolute, none⟩, 3), (0x78#8, ⟨.sei, .implied, none⟩, 1),
     (0x88#8, ⟨.dey, .implied, none⟩, 1), (0x8D#8, ⟨.sta, .absolute, none⟩, 3),
     (0x9A#8, ⟨.txs, .implied, none⟩, 1), (0xA0#8, ⟨.ldy, .immediate, none⟩, 2),
     (0xA2#8, ⟨.ldx, .immediate, none⟩, 2), (0xA9#8, ⟨.lda, .immediate, none⟩, 2),
     (0xBD#8, ⟨.lda, .absolute, some .x⟩, 3), (0xD0#8, ⟨.bne, .relative, none⟩, 2),
     (0xE8#8, ⟨.inx, .implied, none⟩, 1)]
  (∀ r ∈ rows, decodeOpcode r.1 = some r.2.1 ∧ 1 + r.2.1.mode.operandBytes = r.2.2) ∧
    ∀ b : Byte, b ∉ rows.map (·.1) → decodeOpcode b = none

/-- R90: opcode byte first, then as many operand bytes as the opcode's mode has, at most two; so the opcode byte
alone fixes the length. -/
def Obligations.OpcodeByteFixesModeAndLength : Prop :=
  (∀ i : Instr, ∃ d operands, encode i = i.opcode :: operands ∧ decodeOpcode i.opcode = some d ∧
    operands.length = d.mode.operandBytes ∧ operands.length ≤ 2) ∧
  ∀ i j : Instr, i.opcode = j.opcode → i.length = j.length

/-- Decode after encode, for every instruction and every operand value, with any bytes behind it. -/
def Obligations.DecodeOfEncodeIsTheInstruction : Prop :=
  ∀ (i : Instr) (rest : List Byte), i.wellFormed = true ∧ decode (encode i ++ rest) = .ok (i, rest)

/-- Encode after decode: bytes that decode are the encoding of what they decode to, so no two byte strings of one
length mean the same instruction. -/
def Obligations.DecodedBytesAreTheEncoding : Prop :=
  ∀ (bytes : List Byte) (i : Instr) (rest : List Byte), decode bytes = .ok (i, rest) → bytes = encode i ++ rest

/-- A few words written out from R91 and R93 (sanity). -/
def Obligations.SampleWordsDecode : Prop :=
  decodeTableWord 24 0x900020 = some (.jsr 0x9000#16) ∧
  decodeTableWord 16 0xF021 = some (.andIndX 0xF0#8) ∧
  decodeTableWord 8 0x78 = some .sei ∧
  decodeTableWord 24 0x20068D = some (.sta 0x2006#16) ∧
  decodeTableWord 24 0x1224BD = some (.ldaAbsX 0x1224#16) ∧
  decodeTableWord 16 0xFDD0 = some (.bne 0xFD#8) ∧
  decodeTableWord 8 0xEA = none

/-! ### The step (40_pipeline_addressing.md, 60_exceptions.md) -/

/-- A running machine whose bytes at PC decode to an instruction, none of them at a port, runs that instruction
whole: exec answers a next state that runs, and the step is that state after its PPU cycles (R110, R278). That one step
is one iteration of the scheduler is the model's choice (log 5). -/
def Obligations.StepRunsTheDecodedInstruction : Prop :=
  ∀ (s : State) (i : Instr) (rest : List Byte), s.Running → decode s.codeBytes = .ok (i, rest) →
    s.fetchable i.length = true →
    ∃ t, exec i s = .next t ∧ t.Running ∧
      step s = .next (t.runPpu (3 * Config.cpuCycles i.opcode (taken i s) (crossed i s)))

/-- R278's arguments of CPU_CYCLES, per instruction (log 6 names what the rule leaves open). -/
def Obligations.CycleArgumentsOfEveryInstruction : Prop :=
  ∀ (i : Instr) (s : State),
    (taken i s = true ↔ ∃ off, i = .bne off ∧ s.p.getLsbD 1 = false) ∧
    (crossed i s = true ↔
      (∃ base, i = .ldaAbsX base ∧
        (base + s.x.setWidth 16).toNat / 256 ≠ base.toNat / 256) ∨
      (∃ off, i = .bne off ∧
        (s.pc + 2#16 + off.signExtend 16).toNat / 256 ≠ (s.pc + 2#16).toNat / 256))

/-- An unknown opcode byte is fetched: the step is the taking of UnknownOpcode and changes nothing else (R97, R110,
R264). -/
def Obligations.UnknownOpcodeHalts : Prop :=
  ∀ s : State, s.Running → isPort s.pc = false → decodeOpcode (s.load s.pc) = none →
    step s = .next { s with halted := some ⟨.unknownOpcode (s.load s.pc) s.pc, s.registers⟩ }

/-- An instruction byte at a port is refused, the opcode byte first, then the operand bytes in order; the fetch has no
side effect (R59, R266). Rests on the spec's own decisions D11, D29. -/
def Obligations.PortFetchHalts : Prop :=
  ∀ s : State, s.Running →
    (isPort s.pc = true → step s = .next { s with halted := some ⟨.portFetch s.pc, s.registers⟩ }) ∧
    ∀ d, isPort s.pc = false → decodeOpcode (s.load s.pc) = some d →
      (1 ≤ d.mode.operandBytes → isPort (s.pc + 1#16) = true →
        step s = .next { s with halted := some ⟨.portFetch (s.pc + 1#16), s.registers⟩ }) ∧
      (2 ≤ d.mode.operandBytes → isPort (s.pc + 1#16) = false → isPort (s.pc + 2#16) = true →
        step s = .next { s with halted := some ⟨.portFetch (s.pc + 2#16), s.registers⟩ })

/-- A halted machine has no step: neither unit moves again (R38, R265, R279). That a step of a halted state answers
the fault that carries its record is the model's form (log 4). Rests on the spec's own decision D28. -/
def Obligations.HaltedMachineHasNoStep : Prop :=
  ∀ (s : State) (r : FaultRecord), s.halted = some r → step s = .fault (.halted r)

/-- R264, R267: a faulting step leaves the state before the instruction with the record set; the snapshot is the
registers at its start, which are those the halted state keeps; the pc of UnknownOpcode is the snapshot's.
Rests on the spec's own decision D28. -/
def Obligations.FaultsArePreciseAndRecordTheRegisters : Prop :=
  ∀ (s t : State) (r : FaultRecord), s.Running → step s = .next t → t.halted = some r →
    t = { s with halted := some r } ∧ r.snap = s.registers ∧ r.snap = t.registers ∧
      ∀ b pc, r.cause = .unknownOpcode b pc → pc = r.snap.pc

/-- A running machine always answers a next state; it still runs if fetching its instruction raised none of the
faults, and otherwise holds the record of the fault raised. The spec marks its sentence (R262, "A CPU step that raises
none of the faults of rule R260 completes") as its own inference. -/
def Obligations.StepsWithoutAFaultComplete : Prop :=
  ∀ s : State, s.Running →
    (∃ i t, fetchInstr s = .ok i ∧ step s = .next t ∧ t.Running) ∨
    (∃ c t, fetchInstr s = .error c ∧ step s = .next t ∧ t.halted = some ⟨c, s.registers⟩)

/-- The last column of R260's table, an inference of the spec from its decode table: only UnknownOpcode and PortFetch are ever recorded, the first for the byte at PC that the
table lacks, the second for one of the three addresses from PC on. Rests on the spec's own decision D11. -/
def Obligations.OnlyTwoFaultCausesAreReachable : Prop :=
  ∀ (s t : State) (r : FaultRecord), s.Running → step s = .next t → t.halted = some r →
    (r.cause = .unknownOpcode (s.load s.pc) s.pc ∧ decodeOpcode (s.load s.pc) = none ∧ isPort s.pc = false) ∨
    (∃ k, k < 3 ∧ r.cause = .portFetch (s.pc + BitVec.ofNat 16 k) ∧ isPort (s.pc + BitVec.ofNat 16 k) = true)

/-! ### The invariant -/

/-- Every step keeps the invariant. -/
def Obligations.EveryStepKeepsTheInvariant : Prop :=
  ∀ s t : State, s.Inv → step s = .next t → t.Inv

/-- The state after reset meets the invariant. -/
def Obligations.ResetMeetsTheInvariant : Prop := State.reset.Inv

/-- Every loaded cartridge starts in the invariant, whatever the open parameters are. -/
def Obligations.LoadedCartridgeMeetsTheInvariant : Prop :=
  ∀ (init : InitValues) (prg chr : List Byte) (s : State),
    init.mem.wf addressSpaceSize = true → init.vram.wf vramSize = true →
    initializeCore init prg chr = .ok s → s.Inv

/-! ### Results: each instruction completes, with this effect -/

/-- SEI (R141). -/
def Obligations.SeiSetsInterruptDisable : Prop :=
  encode .sei = [0x78#8] ∧
  ∀ s : State, ∃ t, exec .sei s = .next t ∧
    t.p.getLsbD 2 = true ∧ (∀ k, k ≠ 2 → t.p.getLsbD k = s.p.getLsbD k) ∧
    t.pc = s.pc + 1#16 ∧ t.a = s.a ∧ t.x = s.x ∧ t.y = s.y ∧ t.sp = s.sp ∧ SameButRegisters s t

/-- LDA #imm, LDX #imm and LDY #imm (R150, R152, R153). Rests on the spec's own decision D1. -/
def Obligations.ImmediateLoadsLoadTheirRegister : Prop :=
  ∀ imm : Byte,
    (encode (.ldaImm imm) = [0xA9#8, imm] ∧ ∀ s : State, ∃ t, exec (.ldaImm imm) s = .next t ∧
      t.a = imm ∧ NZSet imm s.p t.p ∧
      t.pc = s.pc + 2#16 ∧ t.x = s.x ∧ t.y = s.y ∧ t.sp = s.sp ∧ SameButRegisters s t) ∧
    (encode (.ldxImm imm) = [0xA2#8, imm] ∧ ∀ s : State, ∃ t, exec (.ldxImm imm) s = .next t ∧
      t.x = imm ∧ NZSet imm s.p t.p ∧
      t.pc = s.pc + 2#16 ∧ t.a = s.a ∧ t.y = s.y ∧ t.sp = s.sp ∧ SameButRegisters s t) ∧
    (encode (.ldyImm imm) = [0xA0#8, imm] ∧ ∀ s : State, ∃ t, exec (.ldyImm imm) s = .next t ∧
      t.y = imm ∧ NZSet imm s.p t.p ∧
      t.pc = s.pc + 2#16 ∧ t.a = s.a ∧ t.x = s.x ∧ t.sp = s.sp ∧ SameButRegisters s t)

/-- LDA abs,X (R151): exactly one data read, at base + X modulo 2^16, with its port effect.
Rests on the spec's own decisions D1, D9, D12, D16. -/
def Obligations.LdaAbsoluteXReadsOnce : Prop :=
  ∀ base : Word,
    encode (.ldaAbsX base) = [0xBD#8, base.extractLsb' 0 8, base.extractLsb' 8 8] ∧
    ∀ s : State, ∃ t, exec (.ldaAbsX base) s = .next t ∧
      ReadsByte s (base + s.x.setWidth 16) t.a t ∧ NZSet t.a s.p t.p ∧
      t.pc = s.pc + 3#16 ∧ t.x = s.x ∧ t.y = s.y ∧ t.sp = s.sp

/-- STA abs (R154): one MemWrite of A at the effective address, no flag, no other register. -/
def Obligations.StaWritesTheAccumulator : Prop :=
  ∀ ea : Word,
    encode (.sta ea) = [0x8D#8, ea.extractLsb' 0 8, ea.extractLsb' 8 8] ∧
    ∀ s : State, exec (.sta ea) s = .next { s.memWrite ea s.a with pc := s.pc + 3#16 } ∧
      WritesByte s ea s.a (s.memWrite ea s.a)

/-- TXS (R155). Rests on the spec's own decision D2. -/
def Obligations.TxsCopiesXIntoSp : Prop :=
  encode .txs = [0x9A#8] ∧
  ∀ s : State, ∃ t, exec .txs s = .next t ∧
    t.sp = s.x ∧ t.x = s.x ∧ t.p = s.p ∧ t.pc = s.pc + 1#16 ∧ t.a = s.a ∧ t.y = s.y ∧ SameButRegisters s t

/-- INX (R170). Rests on the spec's own decision D1. -/
def Obligations.InxIncrementsX : Prop :=
  encode .inx = [0xE8#8] ∧
  ∀ s : State, ∃ t, exec .inx s = .next t ∧
    t.x.toNat = (s.x.toNat + 1) % 256 ∧ NZSet t.x s.p t.p ∧
    t.pc = s.pc + 1#16 ∧ t.a = s.a ∧ t.y = s.y ∧ t.sp = s.sp ∧ SameButRegisters s t

/-- DEY (R171). Rests on the spec's own decision D1. -/
def Obligations.DeyDecrementsY : Prop :=
  encode .dey = [0x88#8] ∧
  ∀ s : State, ∃ t, exec .dey s = .next t ∧
    t.y.toNat = (s.y.toNat + 255) % 256 ∧ NZSet t.y s.p t.p ∧
    t.pc = s.pc + 1#16 ∧ t.a = s.a ∧ t.x = s.x ∧ t.sp = s.sp ∧ SameButRegisters s t

/-- AND (zp,X) (R172, R118): the pointer from the zero page at zp + X and the next byte, both modulo 256, low byte
first; one value read through it, with its port effect. Rests on the spec's own decisions D1, D9, D13, D16. -/
def Obligations.AndIndirectMasksTheAccumulator : Prop :=
  ∀ zp : Byte,
    encode (.andIndX zp) = [0x21#8, zp] ∧
    ∀ s : State,
      let lo := s.mem.read ((zp.toNat + s.x.toNat) % 256)
      let hi := s.mem.read ((zp.toNat + s.x.toNat + 1) % 256)
      ∃ t m, exec (.andIndX zp) s = .next t ∧
        ReadsByte s ((hi.setWidth 16 <<< 8) ||| lo.setWidth 16) m t ∧ t.a = s.a &&& m ∧ NZSet t.a s.p t.p ∧
        t.pc = s.pc + 2#16 ∧ t.x = s.x ∧ t.y = s.y ∧ t.sp = s.sp

/-- BNE rel (R190, R117). -/
def Obligations.BneBranchesWhenZeroIsClear : Prop :=
  ∀ off : Byte,
    encode (.bne off) = [0xD0#8, off] ∧
    ∀ s : State, ∃ t, exec (.bne off) s = .next t ∧
      (s.p.getLsbD 1 = false → t.pc = s.pc + 1#16 + 1#16 + off.signExtend 16) ∧
      (s.p.getLsbD 1 = true → t.pc = s.pc + 2#16) ∧
      t.a = s.a ∧ t.x = s.x ∧ t.y = s.y ∧ t.sp = s.sp ∧ t.p = s.p ∧ SameButRegisters s t

/-- JMP abs (R191). -/
def Obligations.JmpSetsPc : Prop :=
  ∀ ea : Word,
    encode (.jmp ea) = [0x4C#8, ea.extractLsb' 0 8, ea.extractLsb' 8 8] ∧
    ∀ s : State, ∃ t, exec (.jmp ea) s = .next t ∧
      t.pc = ea ∧ t.a = s.a ∧ t.x = s.x ∧ t.y = s.y ∧ t.sp = s.sp ∧ t.p = s.p ∧ SameButRegisters s t

/-- JSR abs (R192): the address of the JSR's last byte is pushed, high byte first; the pushes never reach a port. -/
def Obligations.JsrPushesTheReturnAddress : Prop :=
  ∀ ea : Word,
    encode (.jsr ea) = [0x20#8, ea.extractLsb' 0 8, ea.extractLsb' 8 8] ∧
    ∀ s : State, ∃ t, exec (.jsr ea) s = .next t ∧
      t.load (0x0100#16 + s.sp.setWidth 16) = (s.pc + 2#16).extractLsb' 8 8 ∧
      t.load (0x0100#16 + (s.sp - 1#8).setWidth 16) = (s.pc + 2#16).extractLsb' 0 8 ∧
      (∀ b, b ≠ 0x0100#16 + s.sp.setWidth 16 → b ≠ 0x0100#16 + (s.sp - 1#8).setWidth 16 → t.load b = s.load b) ∧
      t.sp = s.sp - 2#8 ∧ t.pc = ea ∧ t.a = s.a ∧ t.x = s.x ∧ t.y = s.y ∧ t.p = s.p ∧
      SameVRam s t ∧ SameScroll s t ∧ t.ppu = s.ppu ∧ t.halted = s.halted

/-! ### Frames over all instructions -/

/-- The `w` columns of R30's table, which the spec derives from its instruction rules: a register or flag changes only by the instructions that the table lets write it, and PC
is the next instruction's address unless the table lets it be written. -/
def Obligations.RegisterWritesFollowTheAccessTable : Prop :=
  ∀ (i : Instr) (s t : State), exec i s = .next t →
    (writesA i = false → t.a = s.a) ∧ (writesX i = false → t.x = s.x) ∧ (writesY i = false → t.y = s.y) ∧
    (writesSp i = false → t.sp = s.sp) ∧ (writesPc i = false → t.pc = s.pcAfter i) ∧
    (writesNZ i = false → t.p.getLsbD 1 = s.p.getLsbD 1 ∧ t.p.getLsbD 7 = s.p.getLsbD 7) ∧
    (writesI i = false → t.p.getLsbD 2 = s.p.getLsbD 2)

/-- Every byte of AddressSpace outside the instruction's own stores reads as before (R119). -/
def Obligations.OnlyStoresChangeAddressSpace : Prop :=
  ∀ (i : Instr) (s t : State), exec i s = .next t → ∀ a, a ∉ storesTo i s → t.load a = s.load a

/-- VRam changes only at `cur & 0x3FFF` and only by a store to 0x2007; each of the four scroll registers changes only
by the accesses of R63 to R67; the PPU's state and the fault record change by no instruction. -/
def Obligations.OnlyPortAccessesReachThePpuSide : Prop :=
  ∀ (i : Instr) (s t : State), exec i s = .next t →
    (∀ a, (i ≠ .sta 0x2007#16 ∨ a ≠ s.vindex) → t.vload a = s.vload a) ∧
    (¬ (i = .sta 0x2006#16 ∧ s.toggle = true) → i ≠ .sta 0x2007#16 → readsValueAt i s ≠ some 0x2007#16 →
      t.cur = s.cur) ∧
    (i ≠ .sta 0x2000#16 → i ≠ .sta 0x2005#16 → i ≠ .sta 0x2006#16 → t.tmp = s.tmp) ∧
    (i ≠ .sta 0x2005#16 → t.fineX = s.fineX) ∧
    (i ≠ .sta 0x2005#16 → i ≠ .sta 0x2006#16 → readsValueAt i s ≠ some 0x2002#16 → t.toggle = s.toggle) ∧
    t.ppu = s.ppu ∧ t.halted = s.halted

/-- `cur` changes only by the second 0x2006 write and by 0x2007 accesses. The spec marks the sentence (R302, "`cur` is
changed only by the second 0x2006 write and by 0x2007 accesses") as its own inference.
Rests on the spec's own decisions D14, D15. -/
def Obligations.CurChangesOnlyBySecondAddressWriteOrDataPort : Prop :=
  ∀ (i : Instr) (s t : State), exec i s = .next t → t.cur ≠ s.cur →
    (i = .sta 0x2006#16 ∧ s.toggle = true) ∨ i = .sta 0x2007#16 ∨ readsValueAt i s = some 0x2007#16

/-- C, V, D, B and bit 5 are written by no instruction and no step, and no flag but Z is read: replacing the other bits
of P before an instruction changes nothing after it but bits of P that the instruction leaves alone; each bit it writes
comes out alike. The spec marks its sentence (R29, "No admitted
instruction writes or reads them") as its own inference. -/
def Obligations.UnusedFlagsAreNeitherWrittenNorRead : Prop :=
  (∀ (s t : State) (k : Nat), step s = .next t → k ∈ [0, 3, 4, 5, 6] → t.p.getLsbD k = s.p.getLsbD k) ∧
  (∀ (i : Instr) (s t : State) (k : Nat), exec i s = .next t → k ∈ [0, 3, 4, 5, 6] →
    t.p.getLsbD k = s.p.getLsbD k) ∧
  ∀ (i : Instr) (s t : State) (q : Byte), q.getLsbD 1 = s.p.getLsbD 1 → exec i s = .next t →
    ∃ q', exec i { s with p := q } = .next { t with p := q' } ∧
      ∀ k, q'.getLsbD k = t.p.getLsbD k ∨ (q'.getLsbD k = q.getLsbD k ∧ t.p.getLsbD k = s.p.getLsbD k)

/-! ### Memory and the port bus (20_memory.md) -/

/-- R62: the five ports, and at every other address a read and a write have no side effect. -/
def Obligations.OnlyPortsHaveSideEffects : Prop :=
  (∀ a : Word, isPort a = true ↔
    a = 0x2000#16 ∨ a = 0x2002#16 ∨ a = 0x2005#16 ∨ a = 0x2006#16 ∨ a = 0x2007#16) ∧
  ∀ (s : State) (a : Word) (v : Byte), isPort a = false →
    s.memRead a = (s.load a, s) ∧ s.memWrite a v = s.store a v

/-- R60: the byte MemRead returns and all it changes. Rests on the spec's own decisions D7, D9, D16. -/
def Obligations.MemReadFollowsThePortTable : Prop :=
  ∀ (s : State) (a : Word),
    ReadsByte s a (s.memRead a).1 (s.memRead a).2 ∧ (s.memRead a).2.registers = s.registers

/-- R64: a read of 0x2002 clears the toggle and does nothing else; a write only stores its byte. -/
def Obligations.Port2002ReadClearsTheToggle : Prop :=
  ∀ (s : State) (v : Byte),
    (s.memRead 0x2002#16).2 = { s with toggle := false } ∧ s.memWrite 0x2002#16 v = s.store 0x2002#16 v

/-- R63. Rests on the spec's own decision D15. -/
def Obligations.Port2000WriteSetsTheNameTable : Prop :=
  ∀ (s : State) (v : Byte),
    let t := s.memWrite 0x2000#16 v
    FieldSet s.tmp t.tmp 10 11 v ∧ t.ctrl = v ∧ t.cur = s.cur ∧ t.fineX = s.fineX ∧ t.toggle = s.toggle ∧
      SameVRam s t ∧ WritesByte s 0x2000#16 v t

/-- R65. Rests on the spec's own decision D15. -/
def Obligations.Port2005WritesTheScrollPair : Prop :=
  ∀ (s : State) (v : Byte),
    let t := s.memWrite 0x2005#16 v
    (s.toggle = false → t.fineX.toNat = v.toNat % 8 ∧ FieldSet s.tmp t.tmp 0 4 (v >>> 3)) ∧
    (s.toggle = true → t.fineX = s.fineX ∧ ∀ k, k < 15 → t.tmp.getLsbD k =
      if 12 ≤ k then v.getLsbD (k - 12) else if 5 ≤ k ∧ k ≤ 9 then (v >>> 3).getLsbD (k - 5) else s.tmp.getLsbD k) ∧
    t.toggle = !s.toggle ∧ t.cur = s.cur ∧ SameVRam s t ∧ WritesByte s 0x2005#16 v t

/-- R66. Rests on the spec's own decisions D14, D15. -/
def Obligations.Port2006WritesTheAddressPair : Prop :=
  ∀ (s : State) (v : Byte),
    let t := s.memWrite 0x2006#16 v
    (s.toggle = false → t.cur = s.cur ∧ ∀ k, k < 15 → t.tmp.getLsbD k =
      if k = 14 then false else if 8 ≤ k then v.getLsbD (k - 8) else s.tmp.getLsbD k) ∧
    (s.toggle = true → FieldSet s.tmp t.tmp 0 7 v ∧ t.cur = t.tmp) ∧
    t.toggle = !s.toggle ∧ t.fineX = s.fineX ∧ SameVRam s t ∧ WritesByte s 0x2006#16 v t

/-- R67: the VRam byte at the old `cur`, then `cur` moves by 1 or 32 modulo 2^15; on a read the byte comes at once.
Rests on the spec's own decisions D7, D16. -/
def Obligations.Port2007AccessesVRamAndMovesCur : Prop :=
  ∀ (s : State) (v : Byte),
    let step := if (s.mem.read 0x2000).getLsbD 2 then 32 else 1
    let t := s.memWrite 0x2007#16 v
    t.vram.read (s.cur.toNat % 0x4000) = v ∧
    (∀ a : VIndex, a.toNat ≠ s.cur.toNat % 0x4000 → t.vload a = s.vload a) ∧
    t.cur.toNat = (s.cur.toNat + step) % 0x8000 ∧ t.tmp = s.tmp ∧ t.fineX = s.fineX ∧ t.toggle = s.toggle ∧
    WritesByte s 0x2007#16 v t ∧
    (s.memRead 0x2007#16).1 = s.vram.read (s.cur.toNat % 0x4000) ∧
    (s.memRead 0x2007#16).2.cur.toNat = (s.cur.toNat + step) % 0x8000

/-- R70: one toggle for both pair ports; after one write to either, a write to the other is the second of its pair. -/
def Obligations.PairPortsShareOneToggle : Prop :=
  ∀ (s : State) (v w : Byte), s.toggle = false →
    (let t := (s.memWrite 0x2005#16 v).memWrite 0x2006#16 w
     t.toggle = false ∧ t.cur = t.tmp ∧ FieldSet (s.memWrite 0x2005#16 v).tmp t.tmp 0 7 w) ∧
    (let t := (s.memWrite 0x2006#16 v).memWrite 0x2005#16 w
     t.toggle = false ∧ t.cur = s.cur ∧ t.fineX = s.fineX ∧
       ∀ k, k < 15 → 12 ≤ k → t.tmp.getLsbD k = w.getLsbD (k - 12))

/-- Bytes written in a row to 0x2007 with bit 2 of `ctrl` clear fill consecutive VRam bytes from `cur` on, wrapping in
VRam, and move `cur` past them (R67; 95_test_vectors.md X-PORT-1). -/
def Obligations.DataPortFillsConsecutiveVRam : Prop :=
  ∀ (vs : List Byte) (s : State), vs.length ≤ 0x4000 → s.ctrl.getLsbD 2 = false →
    let t := vs.foldl (fun u v => u.memWrite 0x2007#16 v) s
    t.cur = s.cur + BitVec.ofNat 15 vs.length ∧
    ∀ k, (hk : k < vs.length) → t.vram.read ((s.cur.toNat + k) % 0x4000) = vs[k]

/-- R57: a write into 0x8000 to 0xFFFF is stored, read and fetched like any plain byte, and changes no other byte, the
other bank copy among them. Rests on the spec's own decision D10. -/
def Obligations.StoresIntoPrgAreReadAndFetched : Prop :=
  ∀ (s : State) (a : Word) (v : Byte), 0x8000 ≤ a.toNat →
    let t := s.memWrite a v
    t.fetch a = .ok v ∧ t.memRead a = (v, t) ∧ ∀ b, b ≠ a → t.load b = s.load b

/-- R72: a push writes at 0x0100 + SP, then SP goes down by one modulo 256; it never touches a port. -/
def Obligations.PushWritesThenDecrements : Prop :=
  ∀ (s : State) (v : Byte),
    let t := s.push v
    t.load (0x0100#16 + s.sp.setWidth 16) = v ∧
    (∀ b, b ≠ 0x0100#16 + s.sp.setWidth 16 → t.load b = s.load b) ∧
    t.sp.toNat = (s.sp.toNat + 255) % 256 ∧ t.a = s.a ∧ t.x = s.x ∧ t.y = s.y ∧ t.p = s.p ∧ t.pc = s.pc ∧
    SameVRam s t ∧ SameScroll s t ∧ t.ppu = s.ppu ∧ t.halted = s.halted

/-- R72, R73: pulling after a push gives the byte back and restores SP. Rests on the spec's own decision D33. -/
def Obligations.PullUndoesPush : Prop :=
  ∀ (s : State) (v : Byte), (s.push v).pull.1 = v ∧ (s.push v).pull.2.registers = s.registers

/-! ### Power-on and the host (70_reset_and_hazards.md, 60_exceptions.md) -/

/-- R290's checks: which error, and success otherwise. Rests on the spec's own decision D8. -/
def Obligations.LoadErrorsAreExactlyTheBadSizes : Prop :=
  ∀ (init : InitValues) (prg chr : List Byte),
    (initializeCore init prg chr = .error .prgSize ↔ prg.length = 0 ∨ prg.length % 16384 ≠ 0) ∧
    (initializeCore init prg chr = .error .chrSize ↔
      ¬ (prg.length = 0 ∨ prg.length % 16384 ≠ 0) ∧ 8192 < chr.length) ∧
    (¬ (prg.length = 0 ∨ prg.length % 16384 ≠ 0) → chr.length ≤ 8192 → ∃ s, initializeCore init prg chr = .ok s)

/-- R291: one bank in both ranges, or the first two banks; nothing below 0x8000 is touched.
Rests on the spec's own decision D10. -/
def Obligations.PrgIsPlacedFrom8000 : Prop :=
  ∀ (init : InitValues) (prg chr : List Byte) (s : State), initializeCore init prg chr = .ok s →
    (prg.length = 16384 → ∀ i, i < 0x4000 →
      prg[i]? = some (s.mem.read (0x8000 + i)) ∧ prg[i]? = some (s.mem.read (0xC000 + i))) ∧
    (prg.length ≠ 16384 → ∀ i, i < 0x8000 → prg[i]? = some (s.mem.read (0x8000 + i))) ∧
    ∀ a, a < 0x8000 → s.mem.read a = init.mem.read a

/-- R292: CHR from VRam index 0 on; the rest of VRam is INIT_VRAM. -/
def Obligations.ChrIsCopiedToVRam : Prop :=
  ∀ (init : InitValues) (prg chr : List Byte) (s : State), initializeCore init prg chr = .ok s →
    (∀ i, i < chr.length → chr[i]? = some (s.vram.read i)) ∧
    ∀ i, chr.length ≤ i → s.vram.read i = init.vram.read i

/-- R293: PC from the last four bytes of the PRG placement, low byte first. Rests on the spec's own decision D5. -/
def Obligations.ResetPcComesFromTheVector : Prop :=
  ∀ (init : InitValues) (prg chr : List Byte) (s : State), initializeCore init prg chr = .ok s →
    s.pc = ((s.mem.read 0xFFFD).setWidth 16 <<< 8) ||| (s.mem.read 0xFFFC).setWidth 16 ∧
    let k := if prg.length = 16384 then 0x3FFC else 0x7FFC
    prg[k]? = some (s.mem.read 0xFFFC) ∧ prg[k + 1]? = some (s.mem.read 0xFFFD)

/-- R41, every row of its table: the fixed power-on values, PC from the vector, the cartridge's part of each memory, and
the open parameters in everything else. Rests on the spec's own decisions D4 to D7, D10, D25, D26, D28. -/
def Obligations.PowerOnValuesFollowTheTable : Prop :=
  ∀ (init : InitValues) (prg chr : List Byte) (s : State), initializeCore init prg chr = .ok s →
    s.a = init.a ∧ s.x = init.x ∧ s.y = init.y ∧ s.sp = init.sp ∧ s.p = init.p ∧
    s.cur = init.cur ∧ s.tmp = init.tmp ∧ s.fineX = init.fineX ∧ s.toggle = false ∧
    s.ppu.scanline = -1 ∧ s.ppu.cycle = 0 ∧ s.ppu.patHi = init.patHi ∧ s.ppu.patLo = init.patLo ∧
    s.ppu.attrLatch = init.attrLatch ∧ s.ppu.pixels = [] ∧ s.halted = none ∧
    s.pc = ((s.mem.read 0xFFFD).setWidth 16 <<< 8) ||| (s.mem.read 0xFFFC).setWidth 16 ∧
    (∀ i, i < 0x8000 → (if prg.length = 16384 then prg ++ prg else prg)[i]? = some (s.mem.read (0x8000 + i))) ∧
    (∀ a, a < 0x8000 → s.mem.read a = init.mem.read a) ∧
    (∀ i, i < chr.length → chr[i]? = some (s.vram.read i)) ∧
    ∀ i, chr.length ≤ i → s.vram.read i = init.vram.read i

/-- The model's choice (log 1, log 2, log 3), not the spec's: State.reset is what loading a one-bank cartridge of
zero bytes gives under parameters that are all zero, so it is a state the load contract reaches. -/
def Obligations.ResetIsTheBlankCartridge : Prop :=
  initializeCore InitValues.zero (List.replicate 16384 0#8) [] = .ok State.reset

/-! ### The PPU (48_ppu_renderer.md) -/

/-- R211: the position counts modulo 89 342 cycles, 341 to a scanline, from -1 to 260, and no cycle is skipped. -/
def Obligations.PpuPositionCountsModuloOneFrame : Prop :=
  ∀ (v : PpuView) (p : Ppu) (n : Nat), p.Legal →
    (Ppu.run v n p).Legal ∧ (Ppu.run v n p).index = (p.index + n) % 89342

/-- R212, R213, R214, R230: an idle cycle does nothing but advance. -/
def Obligations.IdleCyclesOnlyAdvance : Prop :=
  ∀ (v : PpuView) (p : Ppu), p.Legal →
    (240 ≤ p.scanline ∨ (p.cycle ≠ 328 ∧ p.cycle ≠ 336 ∧ (p.scanline = -1 ∨ p.cycle = 0 ∨ 257 ≤ p.cycle))) →
    p.step v = p.advance

/-- R220, R221, R227, R228: a pixel cycle emits one event from the state before the shift, shifts both registers, and
on every 8th cycle reloads their low bytes and the latch.
Rests on the spec's own decisions D18, D19, D20, D21, D23. -/
def Obligations.PixelCycleEmitsShiftsAndReloads : Prop :=
  ∀ (v : PpuView) (p : Ppu) (y : Nat), p.scanline = y → y ≤ 239 → 1 ≤ p.cycle → p.cycle ≤ 256 →
    let x := p.cycle - 1
    let pair := 2 * (p.patHi.getLsbD 15).toNat + (p.patLo.getLsbD 15).toNat
    let q := 2 * (y / 16 % 2) + x / 16 % 2
    let pal := p.attrLatch.toNat / 2 ^ (2 * q) % 4
    let t := p.step v
    t.pixels = p.pixels ++ [⟨x, y, Config.nesColor (Fin.ofNat 64 (v.vram.read (0x3F00 + (pal * 4 + pair))).toNat)⟩] ∧
    t.scanline = p.scanline ∧ t.cycle = p.cycle + 1 ∧
    (p.cycle % 8 ≠ 0 → t.patHi = p.patHi <<< 1 ∧ t.patLo = p.patLo <<< 1 ∧ t.attrLatch = p.attrLatch) ∧
    (p.cycle % 8 = 0 →
      hiByte t.patHi = hiByte (p.patHi <<< 1) ∧ loByte t.patHi = v.tileHi (p.cycle / 8 + 1) y ∧
      hiByte t.patLo = hiByte (p.patLo <<< 1) ∧ loByte t.patLo = v.tileLo (p.cycle / 8 + 1) y ∧
      t.attrLatch = v.attrByte (p.cycle / 8) y)

/-- R229: the two prefetch loads of scanlines -1 to 239, for the next row; the other cycles of the prefetch do
nothing. Rests on the spec's own decisions D18, D19, D22. -/
def Obligations.PrefetchLoadsTheNextRow : Prop :=
  ∀ (v : PpuView) (p : Ppu) (row : Nat), p.scanline + 1 = row → row ≤ 240 →
    let t := p.step v
    (p.cycle = 328 →
      hiByte t.patHi = v.tileHi 0 row ∧ hiByte t.patLo = v.tileLo 0 row ∧
      loByte t.patHi = loByte p.patHi ∧ loByte t.patLo = loByte p.patLo ∧
      t.attrLatch = v.attrByte 0 row ∧ t.pixels = p.pixels) ∧
    (p.cycle = 336 →
      loByte t.patHi = v.tileHi 1 row ∧ loByte t.patLo = v.tileLo 1 row ∧
      hiByte t.patHi = hiByte p.patHi ∧ hiByte t.patLo = hiByte p.patLo ∧
      t.attrLatch = p.attrLatch ∧ t.pixels = p.pixels) ∧
    (321 ≤ p.cycle → p.cycle ≤ 335 → p.cycle ≠ 328 → t = p.advance)

/-- R224, R225, R226: the fetch position of a slot on a row from the fields of `cur`, its name-table and attribute
addresses, the pattern table that bit 4 of `ctrl` selects, and the bytes read there. A position is a tile of one of
the four name tables and its addresses lie in the name-table and pattern-table regions, so the 14-bit mask changes none
of them. What the PPU of a state reads is `cur`, `M[0x2000]` and VRam (R231). Rests on the spec's own decisions D10,
D17, D18, D19. -/
def Obligations.FetchAddressesStayInTheirTables : Prop :=
  (∀ s : State, s.ppuView = ⟨s.cur, s.mem.read 0x2000, s.vram⟩) ∧
  ∀ (v : PpuView) (m row : Nat),
    let c := v.cur.toNat
    let ox := 8 * (c % 32) + 256 * (c / 1024 % 2)
    let oy := 8 * (c / 32 % 32) + c / 4096 + 240 * (c / 2048 % 2)
    let wx := (ox + 8 * m) % 512
    let wy := (oy + row) % 480
    let n := wx / 256 + 2 * (wy / 240)
    let tx := wx % 256 / 8
    let ty := wy % 240 / 8
    let r := wy % 240 % 8
    let nt := 0x2000 + 0x400 * n + 32 * ty + tx
    let at' := 0x2000 + 0x400 * n + 0x3C0 + 8 * (ty / 4) + tx / 4
    let lo := 0x1000 * (v.ctrl.getLsbD 4).toNat + 16 * (v.vram.read nt).toNat + r
    let w := v.world m row
    (w.n = n ∧ w.tx = tx ∧ w.ty = ty ∧ w.r = r) ∧ (w.ntAddr = nt ∧ w.atAddr = at') ∧ v.patternAddr m row = lo ∧
    v.tileLo m row = v.vram.read lo ∧ v.tileHi m row = v.vram.read (lo + 8) ∧ v.attrByte m row = v.vram.read at' ∧
    (n < 4 ∧ tx < 32 ∧ ty < 30 ∧ r < 8) ∧
    (0x2000 + 0x400 * n ≤ nt ∧ nt < 0x2000 + 0x400 * n + 0x3C0) ∧
    (0x2000 + 0x400 * n + 0x3C0 ≤ at' ∧ at' < 0x2000 + 0x400 * (n + 1)) ∧
    lo + 8 < 0x2000

/-- Under one view, when cycle 8m + 1 of a visible line begins, the shifters hold slot m above slot m + 1 and
the latch holds slot m's attribute, whatever the shift state was before the prefetch. The spec marks this invariant
(R222, "Rules R228 and R229 keep this invariant") as its own inference.
Rests on the spec's own decisions D18, D21, D22. -/
def Obligations.ShiftersHoldTheirSlots : Prop :=
  ∀ (v : PpuView) (p : Ppu) (y m : Nat), y ≤ 239 → m ≤ 31 → p.scanline + 1 = y → p.cycle = 321 →
    let t := Ppu.run v (20 + (8 * m + 1)) p
    t.scanline = y ∧ t.cycle = 8 * m + 1 ∧
    hiByte t.patHi = v.tileHi m y ∧ loByte t.patHi = v.tileHi (m + 1) y ∧
    hiByte t.patLo = v.tileLo m y ∧ loByte t.patLo = v.tileLo (m + 1) y ∧ t.attrLatch = v.attrByte m y

/-- The shift-register renderer draws the picture: under one view, a visible line's 256 events are the pixels read
straight from VRam, whatever the shift state was before the prefetch. Rests on the spec's own decisions D18 to D24. -/
def Obligations.ScanlineShowsThePicture : Prop :=
  ∀ (v : PpuView) (p : Ppu) (y : Nat), y ≤ 239 → p.scanline + 1 = y → p.cycle = 321 →
    (Ppu.run v (20 + 257) p).pixels = p.pixels ++ (List.range 256).map (fun x => v.pixelAt x y)

/-- R221: one frame emits 61 440 pixels in raster order and comes back to its first position. -/
def Obligations.FrameEmitsRasterOrder : Prop :=
  ∀ (v : PpuView) (p : Ppu), p.scanline = -1 → p.cycle = 0 →
    ∃ events, (Ppu.run v 89342 p).pixels = p.pixels ++ events ∧
      events.map (fun e => (e.x, e.y)) = (List.range 61440).map (fun k => (k % 256, k / 256)) ∧
      (Ppu.run v 89342 p).scanline = -1 ∧ (Ppu.run v 89342 p).cycle = 0

/-- R231: nothing the PPU does is visible to the CPU. Two states that differ only in the PPU's own state step alike,
and PPU cycles change nothing else. Rests on the spec's own decision D17. -/
def Obligations.PpuIsInvisibleToTheCpu : Prop :=
  ∀ (s : State) (p : Ppu),
    (∀ t, step s = .next t → ∃ q, step { s with ppu := p } = .next { t with ppu := q }) ∧
    (∀ r, step s = .fault r → step { s with ppu := p } = .fault r) ∧
    ∀ n, ∃ q, s.runPpu n = { s with ppu := q }

/-- R232, R34: `fine_x` is never read. Two states that differ only in it step alike, pixels included.
Rests on the spec's own decision D24. -/
def Obligations.FineXHasNoEffect : Prop :=
  ∀ (s : State) (f : BitVec 3),
    (∀ t, step s = .next t → ∃ g, step { s with fineX := f } = .next { t with fineX := g }) ∧
    (∀ r, step s = .fault r → step { s with fineX := f } = .fault r)
end

