-- ==== Sys2Proof/Laws/Bits.lean ====
section
/-! SUPPORT. The laws of bit fields, byte order and flags: each helper said bit by bit. -/

namespace Sys2Proof

@[simp] theorem loByte_getLsbD (w : Word) (k : Nat) : (loByte w).getLsbD k = (decide (k < 8) && w.getLsbD k) := by
  simp [loByte]

@[simp] theorem hiByte_getLsbD (w : Word) (k : Nat) :
    (hiByte w).getLsbD k = (decide (k < 8) && w.getLsbD (8 + k)) := by
  simp [hiByte]

/-- A word from two bytes, bit by bit. -/
theorem wordOf_getLsbD (hi lo : Byte) (k : Nat) :
    (wordOf hi lo).getLsbD k = if k < 8 then lo.getLsbD k else (decide (k < 16) && hi.getLsbD (k - 8)) := by
  unfold wordOf
  rw [BitVec.getLsbD_or, BitVec.getLsbD_shiftLeft, BitVec.getLsbD_setWidth, BitVec.getLsbD_setWidth]
  by_cases h8 : k < 8
  · have h16 : k < 16 := by omega
    simp [h8, h16]
  · by_cases h16 : k < 16
    · have : k - 8 < 16 := by omega
      simp [h8, h16, this, BitVec.getLsbD_of_ge lo k (by omega)]
    · simp [h8, h16]

@[simp] theorem loByte_wordOf (hi lo : Byte) : loByte (wordOf hi lo) = lo := by
  apply BitVec.eq_of_getLsbD_eq
  intro i h
  rw [loByte_getLsbD, wordOf_getLsbD, if_pos h, decide_eq_true h, Bool.true_and]

@[simp] theorem hiByte_wordOf (hi lo : Byte) : hiByte (wordOf hi lo) = hi := by
  apply BitVec.eq_of_getLsbD_eq
  intro i h
  have h16 : 8 + i < 16 := by omega
  rw [hiByte_getLsbD, wordOf_getLsbD, if_neg (by omega), decide_eq_true h, decide_eq_true h16, Bool.true_and,
    Bool.true_and, show 8 + i - 8 = i by omega]

@[simp] theorem wordOf_hiByte_loByte (w : Word) : wordOf (hiByte w) (loByte w) = w := by
  apply BitVec.eq_of_getLsbD_eq
  intro i h
  rw [wordOf_getLsbD]
  split
  · next h8 => rw [loByte_getLsbD, decide_eq_true h8, Bool.true_and]
  · have h8 : i - 8 < 8 := by omega
    rw [hiByte_getLsbD, show 8 + (i - 8) = i by omega, decide_eq_true h, decide_eq_true h8, Bool.true_and,
      Bool.true_and]

theorem fieldMask_getLsbD (lo width k : Nat) :
    (fieldMask lo width).getLsbD k = (decide (k < 15) && decide (lo ≤ k) && decide (k < lo + width)) := by
  unfold fieldMask
  rw [BitVec.getLsbD_shiftLeft, BitVec.getLsbD_ofNat, Nat.testBit_two_pow_sub_one]
  by_cases h1 : k < 15 <;> by_cases h2 : lo ≤ k <;> by_cases h3 : k < lo + width <;>
    simp [h1, h2, h3] <;> omega

/-- A field read as arithmetic on the whole register. -/
theorem field_eq (r : Scroll) (lo width : Nat) : field r lo width = r.toNat / 2 ^ lo % 2 ^ width := by
  unfold field
  rw [BitVec.extractLsb'_toNat, Nat.shiftRight_eq_div_pow]

/-- A field write, bit by bit. -/
theorem setField_getLsbD (r : Scroll) (lo width : Nat) (f : Byte) (k : Nat) :
    (setField r lo width f).getLsbD k =
      if k < 15 ∧ lo ≤ k ∧ k < lo + width then f.getLsbD (k - lo) else r.getLsbD k := by
  unfold setField
  rw [BitVec.getLsbD_or, BitVec.getLsbD_and, BitVec.getLsbD_and, BitVec.getLsbD_not, fieldMask_getLsbD,
    BitVec.getLsbD_shiftLeft, BitVec.getLsbD_setWidth]
  by_cases h1 : k < 15
  · by_cases h2 : lo ≤ k
    · by_cases h3 : k < lo + width
      · simp [h1, h2, h3, Nat.not_lt.mpr h2]
        intro _
        omega
      · simp [h1, h2, h3]
    · simp [h1, h2]
  · simp [h1, BitVec.getLsbD_of_ge _ _ (Nat.not_lt.mp h1)]

namespace Machine

/-- A flag write, bit by bit. -/
theorem setFlag_getLsbD (p : Byte) (f : Flag) (on : Bool) (k : Nat) :
    (setFlag p f on).getLsbD k = if k = f.bit then on else p.getLsbD k := by
  have hf : f.bit < 8 := by cases f <;> decide
  have one : ∀ j, (1#8).getLsbD j = decide (j = 0) := by
    intro j
    rw [BitVec.getLsbD_one]
    simp
  unfold setFlag
  by_cases hk : k = f.bit
  · subst hk
    cases on <;> simp [hf]
  · rw [if_neg hk]
    cases on
    · simp only [Bool.false_eq_true, if_false, BitVec.getLsbD_and, BitVec.getLsbD_not, BitVec.getLsbD_shiftLeft, one]
      by_cases h8 : k < 8
      · have : ¬ (f.bit ≤ k ∧ k - f.bit = 0) := by omega
        by_cases hle : k < f.bit <;> simp [h8, hle]
        intro _
        omega
      · simp [BitVec.getLsbD_of_ge p k (by omega), h8]
    · simp only [if_true, BitVec.getLsbD_or, BitVec.getLsbD_shiftLeft, one]
      by_cases hle : k < f.bit <;> simp [hle]
      intro _
      omega

/-- `SetNZ`, bit by bit. -/
theorem setNZ_getLsbD (p v : Byte) (k : Nat) :
    (setNZ p v).getLsbD k = if k = 7 then v.getLsbD 7 else if k = 1 then decide (v = 0#8) else p.getLsbD k := by
  unfold setNZ
  rw [setFlag_getLsbD, setFlag_getLsbD]
  rfl

end Machine

end Sys2Proof
end

