-- ==== Sys2Proof/Laws/Memory.lean ====
section
/-! SUPPORT. The laws of memory: read after write, and that every operation keeps the canonical form. -/

namespace Sys2Proof.Machine

@[simp] theorem Memory.read_nil (k : Nat) : Memory.read [] k = Config.unlistedByte := rfl

theorem Memory.read_cons (a : Nat) (v : Byte) (m : Memory) (k : Nat) :
    Memory.read ((a, v) :: m) k = if a = k then v else m.read k := rfl

/-- An address that no cell has reads as the unlisted byte. -/
theorem Memory.read_of_forall_ne {m : Memory} {k : Nat} (h : ∀ c ∈ m, c.1 ≠ k) : m.read k = Config.unlistedByte := by
  induction m with
  | nil => rfl
  | cons c m ih =>
    rw [Memory.read_cons, if_neg (h c List.mem_cons_self)]
    exact ih fun d hd => h d (List.mem_cons_of_mem _ hd)

/-- Reading a filtered memory where the filter keeps the address. -/
theorem Memory.read_filter_pos (q : Nat → Bool) {k : Nat} (hk : q k = true) (m : Memory) :
    Memory.read (m.filter fun c => q c.1) k = m.read k := by
  induction m with
  | nil => rfl
  | cons c m ih =>
    obtain ⟨a, v⟩ := c
    by_cases hak : a = k
    · subst hak
      rw [List.filter_cons_of_pos (p := fun c : Host.Cell => q c.1) hk, Memory.read_cons, Memory.read_cons, if_pos rfl, if_pos rfl]
    · by_cases hq : q a = true
      · rw [List.filter_cons_of_pos (p := fun c : Host.Cell => q c.1) hq, Memory.read_cons, Memory.read_cons, if_neg hak, if_neg hak, ih]
      · rw [List.filter_cons_of_neg (p := fun c : Host.Cell => q c.1) hq, Memory.read_cons, if_neg hak, ih]

/-- Reading a filtered memory where the filter drops the address. -/
theorem Memory.read_filter_neg (q : Nat → Bool) {k : Nat} (hk : q k = false) (m : Memory) :
    Memory.read (m.filter fun c => q c.1) k = Config.unlistedByte := by
  apply Memory.read_of_forall_ne
  intro c hc hck
  have := (List.mem_filter.mp hc).2
  simp [hck, hk] at this

theorem Memory.read_erase (m : Memory) (k j : Nat) :
    (m.erase k).read j = if j = k then Config.unlistedByte else m.read j := by
  by_cases h : j = k
  · rw [if_pos h]
    exact Memory.read_filter_neg (fun a => a != k) (by simp [h]) m
  · rw [if_neg h]
    exact Memory.read_filter_pos (fun a => a != k) (by simp [h]) m

theorem Memory.read_insert {m : Memory} {k : Nat} (h : ∀ c ∈ m, c.1 ≠ k) (v : Byte) (j : Nat) :
    (m.insert k v).read j = if j = k then v else m.read j := by
  induction m with
  | nil =>
    simp only [Memory.insert, Memory.read_cons, eq_comm]
  | cons c m ih =>
    obtain ⟨a, w⟩ := c
    have hak : a ≠ k := h _ List.mem_cons_self
    have ih' := ih fun d hd => h d (List.mem_cons_of_mem _ hd)
    unfold Memory.insert
    split
    · simp only [Memory.read_cons, eq_comm]
    · rw [Memory.read_cons, Memory.read_cons, ih']
      by_cases haj : a = j
      · subst haj
        rw [if_pos rfl, if_pos rfl, if_neg hak]
      · rw [if_neg haj, if_neg haj]

/-- Read after write. -/
theorem Memory.read_write (m : Memory) (k : Nat) (v : Byte) (j : Nat) :
    (m.write k v).read j = if j = k then v else m.read j := by
  unfold Memory.write
  split
  · next h => rw [Memory.read_erase, h]
  · rw [Memory.read_insert, Memory.read_erase]
    · by_cases h : j = k
      · rw [if_pos h, if_pos h]
      · rw [if_neg h, if_neg h, if_neg h]
    · intro c hc
      have := (List.mem_filter.mp hc).2
      simpa using this

@[simp] theorem Memory.read_write_same (m : Memory) (k : Nat) (v : Byte) : (m.write k v).read k = v := by
  rw [Memory.read_write, if_pos rfl]

theorem Memory.read_write_other (m : Memory) {k j : Nat} (v : Byte) (h : j ≠ k) :
    (m.write k v).read j = m.read j := by
  rw [Memory.read_write, if_neg h]

/-! ### The canonical form -/

theorem Memory.wfFrom_cons (size lo a : Nat) (v : Byte) (m : Memory) :
    Memory.wfFrom size lo ((a, v) :: m) = true ↔
      lo ≤ a ∧ a < size ∧ v ≠ Config.unlistedByte ∧ Memory.wfFrom size (a + 1) m = true := by
  simp [Memory.wfFrom, and_assoc]

/-- The canonical form from a higher address is one from a lower address. -/
theorem Memory.wfFrom_mono {size lo lo' : Nat} {m : Memory} (h : Memory.wfFrom size lo m = true) (hlo : lo' ≤ lo) :
    Memory.wfFrom size lo' m = true := by
  cases m with
  | nil => rfl
  | cons c m =>
    obtain ⟨a, v⟩ := c
    rw [Memory.wfFrom_cons] at h ⊢
    exact ⟨hlo.trans h.1, h.2⟩

theorem Memory.wfFrom_mem {size lo : Nat} {m : Memory} (h : Memory.wfFrom size lo m = true) {c : Host.Cell}
    (hc : c ∈ m) : lo ≤ c.1 ∧ c.1 < size := by
  induction m generalizing lo with
  | nil => cases hc
  | cons d m ih =>
    obtain ⟨a, v⟩ := d
    rw [Memory.wfFrom_cons] at h
    rcases List.mem_cons.mp hc with rfl | hc
    · exact ⟨h.1, h.2.1⟩
    · have := ih h.2.2.2 hc
      exact ⟨by omega, this.2⟩

theorem Memory.wfFrom_filter {size lo : Nat} {m : Memory} (h : Memory.wfFrom size lo m = true)
    (q : Host.Cell → Bool) : Memory.wfFrom size lo (m.filter q) = true := by
  induction m generalizing lo with
  | nil => rfl
  | cons c m ih =>
    obtain ⟨a, v⟩ := c
    rw [Memory.wfFrom_cons] at h
    have h' := ih h.2.2.2
    by_cases hq : q (a, v) = true
    · rw [List.filter_cons_of_pos hq, Memory.wfFrom_cons]
      exact ⟨h.1, h.2.1, h.2.2.1, h'⟩
    · rw [List.filter_cons_of_neg hq]
      exact Memory.wfFrom_mono h' (by omega)

theorem Memory.wfFrom_insert {size lo k : Nat} {v : Byte} {m : Memory} (h : Memory.wfFrom size lo m = true)
    (hne : ∀ c ∈ m, c.1 ≠ k) (hlo : lo ≤ k) (hk : k < size) (hv : v ≠ Config.unlistedByte) :
    Memory.wfFrom size lo (m.insert k v) = true := by
  induction m generalizing lo with
  | nil => exact (Memory.wfFrom_cons ..).mpr ⟨hlo, hk, hv, rfl⟩
  | cons c m ih =>
    obtain ⟨a, w⟩ := c
    have hak : a ≠ k := hne _ List.mem_cons_self
    rw [Memory.wfFrom_cons] at h
    unfold Memory.insert
    split
    · exact (Memory.wfFrom_cons ..).mpr
        ⟨hlo, hk, hv, (Memory.wfFrom_cons ..).mpr ⟨by omega, h.2⟩⟩
    · exact (Memory.wfFrom_cons ..).mpr ⟨h.1, h.2.1, h.2.2.1,
        ih h.2.2.2 (fun d hd => hne d (List.mem_cons_of_mem _ hd)) (by omega)⟩

/-- A write inside the memory keeps the canonical form. -/
theorem Memory.wf_write {size k : Nat} {m : Memory} (h : m.wf size = true) (hk : k < size) (v : Byte) :
    (m.write k v).wf size = true := by
  unfold Memory.write
  split
  · exact Memory.wfFrom_filter h _
  · next hv =>
    refine Memory.wfFrom_insert (Memory.wfFrom_filter h _) ?_ (Nat.zero_le _) hk hv
    intro c hc
    have := (List.mem_filter.mp hc).2
    simpa using this

/-! ### Placing bytes -/

theorem Memory.mem_ofBytes {base : Nat} {bytes : List Byte} {c : Host.Cell} (h : c ∈ Memory.ofBytes base bytes) :
    base ≤ c.1 ∧ c.1 < base + bytes.length := by
  induction bytes generalizing base with
  | nil => cases h
  | cons v bytes ih =>
    unfold Memory.ofBytes at h
    rw [List.length_cons]
    split at h
    · have := ih h
      omega
    · rcases List.mem_cons.mp h with rfl | h
      · simp only
        omega
      · have := ih h
        omega

theorem Memory.read_ofBytes (base : Nat) (bytes : List Byte) {i : Nat} (hi : i < bytes.length) :
    (Memory.ofBytes base bytes).read (base + i) = bytes[i] := by
  induction bytes generalizing base i with
  | nil => cases hi
  | cons v bytes ih =>
    have below : ∀ k, k < base + 1 → (Memory.ofBytes (base + 1) bytes).read k = Config.unlistedByte := by
      intro k hk
      apply Memory.read_of_forall_ne
      intro c hc
      have := Memory.mem_ofBytes hc
      omega
    unfold Memory.ofBytes
    cases i with
    | zero =>
      split
      · next hv => rw [below _ (by omega)]; exact hv.symm
      · rw [Memory.read_cons, if_pos (Nat.add_zero base).symm]; rfl
    | succ i =>
      have hi' : i < bytes.length := by simpa using hi
      have e := ih (base + 1) hi'
      rw [show base + 1 + i = base + (i + 1) by omega] at e
      split
      · exact e
      · rw [Memory.read_cons, if_neg (by omega)]; exact e

theorem Memory.read_append (m n : Memory) (k : Nat) :
    Memory.read (m ++ n) k = if ∃ c ∈ m, c.1 = k then m.read k else n.read k := by
  induction m with
  | nil => simp
  | cons c m ih =>
    obtain ⟨a, v⟩ := c
    rw [List.cons_append, Memory.read_cons, Memory.read_cons, ih]
    by_cases hak : a = k
    · simp [hak]
    · simp [hak]

theorem Memory.read_append_right {m : Memory} {k : Nat} (h : ∀ c ∈ m, c.1 ≠ k) (n : Memory) :
    Memory.read (m ++ n) k = n.read k := by
  rw [Memory.read_append, if_neg]
  rintro ⟨c, hc, hk⟩
  exact h c hc hk

/-- An address above every cell of the second part is read from the first part. -/
theorem Memory.read_append_left (m : Memory) {n : Memory} {k : Nat} (h : ∀ c ∈ n, c.1 ≠ k) :
    Memory.read (m ++ n) k = m.read k := by
  rw [Memory.read_append]
  split
  · rfl
  · next hm =>
    rw [Memory.read_of_forall_ne h, Memory.read_of_forall_ne]
    exact fun c hc hk => hm ⟨c, hc, hk⟩

/-- Inside the placed range the placed byte is read. -/
theorem Memory.read_place_inside (m : Memory) (base : Nat) (bytes : List Byte) {i : Nat} (hi : i < bytes.length) :
    (m.place base bytes).read (base + i) = bytes[i] := by
  unfold Memory.place
  rw [Memory.read_append_right, Memory.read_append_left, Memory.read_ofBytes _ _ hi]
  · intro c hc hk
    have := (List.mem_filter.mp hc).2
    simp only [decide_eq_true_eq] at this
    omega
  · intro c hc hk
    have := (List.mem_filter.mp hc).2
    simp only [decide_eq_true_eq] at this
    omega

/-- Outside the placed range the memory reads as before. -/
theorem Memory.read_place_outside (m : Memory) (base : Nat) (bytes : List Byte) {k : Nat}
    (hk : k < base ∨ base + bytes.length ≤ k) : (m.place base bytes).read k = m.read k := by
  have hof : ∀ c ∈ Memory.ofBytes base bytes, c.1 ≠ k := by
    intro c hc
    have := Memory.mem_ofBytes hc
    omega
  unfold Memory.place
  rcases hk with hk | hk
  · rw [Memory.read_append_left]
    · exact Memory.read_filter_pos (fun a => decide (a < base)) (by simp [hk]) m
    · intro c hc
      rcases List.mem_append.mp hc with hc | hc
      · exact hof c hc
      · have := (List.mem_filter.mp hc).2
        simp only [decide_eq_true_eq] at this
        omega
  · rw [Memory.read_append_right, Memory.read_append_right hof]
    · exact Memory.read_filter_pos (fun a => decide (base + bytes.length ≤ a)) (by simp [hk]) m
    · intro c hc
      have := (List.mem_filter.mp hc).2
      simp only [decide_eq_true_eq] at this
      omega

theorem Memory.wfFrom_append {size lo mid : Nat} {m n : Memory} (hm : Memory.wfFrom size lo m = true)
    (hn : Memory.wfFrom size mid n = true) (hlo : lo ≤ mid) (hmid : ∀ c ∈ m, c.1 < mid) :
    Memory.wfFrom size lo (m ++ n) = true := by
  induction m generalizing lo with
  | nil => exact Memory.wfFrom_mono hn hlo
  | cons c m ih =>
    obtain ⟨a, v⟩ := c
    rw [Memory.wfFrom_cons] at hm
    have ha : a < mid := hmid _ List.mem_cons_self
    rw [List.cons_append, Memory.wfFrom_cons]
    exact ⟨hm.1, hm.2.1, hm.2.2.1, ih hm.2.2.2 (by omega) fun d hd => hmid d (List.mem_cons_of_mem _ hd)⟩

theorem Memory.wfFrom_ofBytes {size base : Nat} {bytes : List Byte} (h : base + bytes.length ≤ size) :
    Memory.wfFrom size base (Memory.ofBytes base bytes) = true := by
  induction bytes generalizing base with
  | nil => rfl
  | cons v bytes ih =>
    rw [List.length_cons] at h
    have h' := ih (base := base + 1) (by omega)
    unfold Memory.ofBytes
    split
    · exact Memory.wfFrom_mono h' (by omega)
    · next hv => exact (Memory.wfFrom_cons ..).mpr ⟨Nat.le_refl _, by omega, hv, h'⟩

/-- A cell kept above an address makes a canonical list from that address on. -/
theorem Memory.wfFrom_filter_ge {size lo : Nat} {m : Memory} (h : Memory.wfFrom size lo m = true) (b : Nat) :
    Memory.wfFrom size b (m.filter fun c => b ≤ c.1) = true := by
  induction m generalizing lo with
  | nil => rfl
  | cons c m ih =>
    obtain ⟨a, v⟩ := c
    rw [Memory.wfFrom_cons] at h
    by_cases hb : b ≤ a
    · rw [List.filter_cons_of_pos (by simpa using hb), Memory.wfFrom_cons]
      exact ⟨hb, h.2.1, h.2.2.1, Memory.wfFrom_filter h.2.2.2 _⟩
    · rw [List.filter_cons_of_neg (by simpa using hb)]
      exact ih h.2.2.2

/-- Placing bytes inside the memory keeps the canonical form. -/
theorem Memory.wf_place {size base : Nat} {m : Memory} {bytes : List Byte} (h : m.wf size = true)
    (hfit : base + bytes.length ≤ size) : (m.place base bytes).wf size = true := by
  refine Memory.wfFrom_append (Memory.wfFrom_filter h _) (mid := base) ?_ (Nat.zero_le _) ?_
  · refine Memory.wfFrom_append (Memory.wfFrom_ofBytes hfit) (Memory.wfFrom_filter_ge h _) (by omega) ?_
    intro c hc
    exact (Memory.mem_ofBytes hc).2
  · intro c hc
    have := (List.mem_filter.mp hc).2
    simpa using this

/-- Below its first address a memory lists nothing. -/
theorem Memory.read_below {size lo k : Nat} {m : Memory} (h : Memory.wfFrom size lo m = true) (hk : k < lo) :
    m.read k = Config.unlistedByte :=
  Memory.read_of_forall_ne fun c hc => by
    have := Memory.wfFrom_mem h hc
    omega

/-- Two memories in canonical form that read alike everywhere are the same list. -/
theorem Memory.eq_of_read {size lo : Nat} {m n : Memory} (hm : Memory.wfFrom size lo m = true)
    (hn : Memory.wfFrom size lo n = true) (h : ∀ k, m.read k = n.read k) : m = n := by
  induction m generalizing lo n with
  | nil =>
    cases n with
    | nil => rfl
    | cons d n =>
      obtain ⟨b, w⟩ := d
      have hw := (Memory.wfFrom_cons size lo b w n).mp hn
      have := h b
      rw [Memory.read_cons, if_pos rfl, Memory.read_nil] at this
      exact absurd this.symm hw.2.2.1
  | cons c m ih =>
    obtain ⟨a, v⟩ := c
    have hv := (Memory.wfFrom_cons size lo a v m).mp hm
    have hbelow : ∀ k, k < a + 1 → Memory.read m k = Config.unlistedByte := fun k => Memory.read_below hv.2.2.2
    cases n with
    | nil =>
      have := h a
      rw [Memory.read_cons, if_pos rfl, Memory.read_nil] at this
      exact absurd this hv.2.2.1
    | cons d n =>
      obtain ⟨b, w⟩ := d
      have hw := (Memory.wfFrom_cons size lo b w n).mp hn
      have nbelow : ∀ k, k < b + 1 → Memory.read n k = Config.unlistedByte := fun k => Memory.read_below hw.2.2.2
      have ha := h a
      have hb := h b
      simp only [Memory.read_cons, if_pos] at ha hb
      have hab : a = b := by
        rcases Nat.lt_trichotomy a b with hlt | heq | hgt
        · rw [if_neg (by omega), nbelow a (by omega)] at ha
          exact absurd ha hv.2.2.1
        · exact heq
        · rw [if_neg (by omega), hbelow b (by omega)] at hb
          exact absurd hb.symm hw.2.2.1
      subst hab
      rw [if_pos rfl] at ha
      subst ha
      congr 1
      refine ih hv.2.2.2 hw.2.2.2 fun k => ?_
      by_cases hk : a = k
      · rw [hbelow k (by omega), nbelow k (by omega)]
      · have := h k
        rw [Memory.read_cons, Memory.read_cons, if_neg hk, if_neg hk] at this
        exact this

end Sys2Proof.Machine
end

