-- ==== Sys2Proof/Laws/Boot.lean ====
section
/-! SUPPORT. The laws of the load contract: what a successful load places, and where. -/

namespace Sys2Proof.Machine

/-- Two banks are placed, whatever the count of banks (70_reset_and_hazards.md R291). -/
theorem prgImage_length {prg : List Byte} (h : ¬ (prg.length = 0 ∨ prg.length % bankSize ≠ 0)) :
    (prgImage prg).length = 32768 := by
  unfold prgImage
  unfold bankSize at *
  split
  · rw [List.length_append]
    omega
  · rw [List.length_take]
    omega

/-- Everything a successful load does (70_reset_and_hazards.md R290). -/
theorem initializeCore_ok {init : InitValues} {prg chr : List Byte} {s : State}
    (h : initializeCore init prg chr = .ok s) :
    ¬ (prg.length = 0 ∨ prg.length % bankSize ≠ 0) ∧ chr.length ≤ chrLimit ∧
      s = powerOn init (init.mem.place 0x8000 (prgImage prg)) (init.vram.place 0 chr) := by
  unfold initializeCore at h
  split at h
  · cases h
  · next h1 =>
    split at h
    · cases h
    · next h2 =>
      cases h
      exact ⟨h1, Nat.le_of_not_lt h2, rfl⟩

/-- A placed byte reads back at its place. -/
theorem Memory.getElem?_place (m : Memory) (base : Nat) (bytes : List Byte) {i : Nat} (h : i < bytes.length) :
    bytes[i]? = some ((m.place base bytes).read (base + i)) := by
  rw [Memory.read_place_inside m base bytes h, List.getElem?_eq_getElem h]

/-- Zero bytes list no cell. -/
theorem Memory.ofBytes_replicate (n base : Nat) : Memory.ofBytes base (List.replicate n Config.unlistedByte) = [] := by
  induction n generalizing base with
  | zero => rfl
  | succ n ih => rw [List.replicate_succ, Memory.ofBytes, if_pos rfl, ih]

end Sys2Proof.Machine
end

