-- ==== Sys2Proof/Laws/PerInstr.lean ====
section
/-! SUPPORT. Facts about every instruction as syntax, one lemma per constructor: it is well-formed, decoding its
encoding gives it back, and its opcode's row of the decode table is its own. -/

namespace Sys2Proof.Laws

/-- The instruction is well-formed (30_encoding.md R91, R93, R98). -/
def WellFormed.Statement (i : Instr) : Prop := i.wellFormed = true

/-- Decoding the encoding gives the instruction back, with any bytes behind it. -/
def RoundTrip.Statement (i : Instr) : Prop := ∀ rest, decode (encode i ++ rest) = .ok (i, rest)

/-- The opcode's row has the instruction's triple, and the encoding has that mode's operand bytes behind the opcode
byte (30_encoding.md R90, R93). -/
def OwnRow.Statement (i : Instr) : Prop :=
  decodeOpcode i.opcode = some i.form.decoded ∧ encode i = i.opcode :: i.form.operands ∧
    i.form.operands.length = i.form.decoded.mode.operandBytes

theorem WellFormed.jsr (ea : Word) : WellFormed.Statement (.jsr ea) := rfl

theorem WellFormed.andIndX (zp : Byte) : WellFormed.Statement (.andIndX zp) := rfl

theorem WellFormed.jmp (ea : Word) : WellFormed.Statement (.jmp ea) := rfl

theorem WellFormed.sei : WellFormed.Statement .sei := rfl

theorem WellFormed.dey : WellFormed.Statement .dey := rfl

theorem WellFormed.sta (ea : Word) : WellFormed.Statement (.sta ea) := rfl

theorem WellFormed.txs : WellFormed.Statement .txs := rfl

theorem WellFormed.ldyImm (imm : Byte) : WellFormed.Statement (.ldyImm imm) := rfl

theorem WellFormed.ldxImm (imm : Byte) : WellFormed.Statement (.ldxImm imm) := rfl

theorem WellFormed.ldaImm (imm : Byte) : WellFormed.Statement (.ldaImm imm) := rfl

theorem WellFormed.ldaAbsX (base : Word) : WellFormed.Statement (.ldaAbsX base) := rfl

theorem WellFormed.bne (off : Byte) : WellFormed.Statement (.bne off) := rfl

theorem WellFormed.inx : WellFormed.Statement .inx := rfl

theorem RoundTrip.jsr (ea : Word) : RoundTrip.Statement (.jsr ea) := by
  intro rest
  change Except.ok (Instr.jsr (wordOf (hiByte ea) (loByte ea)), rest) = _
  rw [wordOf_hiByte_loByte]

theorem RoundTrip.andIndX (zp : Byte) : RoundTrip.Statement (.andIndX zp) := fun _ => rfl

theorem RoundTrip.jmp (ea : Word) : RoundTrip.Statement (.jmp ea) := by
  intro rest
  change Except.ok (Instr.jmp (wordOf (hiByte ea) (loByte ea)), rest) = _
  rw [wordOf_hiByte_loByte]

theorem RoundTrip.sei : RoundTrip.Statement .sei := fun _ => rfl

theorem RoundTrip.dey : RoundTrip.Statement .dey := fun _ => rfl

theorem RoundTrip.sta (ea : Word) : RoundTrip.Statement (.sta ea) := by
  intro rest
  change Except.ok (Instr.sta (wordOf (hiByte ea) (loByte ea)), rest) = _
  rw [wordOf_hiByte_loByte]

theorem RoundTrip.txs : RoundTrip.Statement .txs := fun _ => rfl

theorem RoundTrip.ldyImm (imm : Byte) : RoundTrip.Statement (.ldyImm imm) := fun _ => rfl

theorem RoundTrip.ldxImm (imm : Byte) : RoundTrip.Statement (.ldxImm imm) := fun _ => rfl

theorem RoundTrip.ldaImm (imm : Byte) : RoundTrip.Statement (.ldaImm imm) := fun _ => rfl

theorem RoundTrip.ldaAbsX (base : Word) : RoundTrip.Statement (.ldaAbsX base) := by
  intro rest
  change Except.ok (Instr.ldaAbsX (wordOf (hiByte base) (loByte base)), rest) = _
  rw [wordOf_hiByte_loByte]

theorem RoundTrip.bne (off : Byte) : RoundTrip.Statement (.bne off) := fun _ => rfl

theorem RoundTrip.inx : RoundTrip.Statement .inx := fun _ => rfl

theorem OwnRow.jsr (ea : Word) : OwnRow.Statement (.jsr ea) := ⟨rfl, rfl, rfl⟩

theorem OwnRow.andIndX (zp : Byte) : OwnRow.Statement (.andIndX zp) := ⟨rfl, rfl, rfl⟩

theorem OwnRow.jmp (ea : Word) : OwnRow.Statement (.jmp ea) := ⟨rfl, rfl, rfl⟩

theorem OwnRow.sei : OwnRow.Statement .sei := ⟨rfl, rfl, rfl⟩

theorem OwnRow.dey : OwnRow.Statement .dey := ⟨rfl, rfl, rfl⟩

theorem OwnRow.sta (ea : Word) : OwnRow.Statement (.sta ea) := ⟨rfl, rfl, rfl⟩

theorem OwnRow.txs : OwnRow.Statement .txs := ⟨rfl, rfl, rfl⟩

theorem OwnRow.ldyImm (imm : Byte) : OwnRow.Statement (.ldyImm imm) := ⟨rfl, rfl, rfl⟩

theorem OwnRow.ldxImm (imm : Byte) : OwnRow.Statement (.ldxImm imm) := ⟨rfl, rfl, rfl⟩

theorem OwnRow.ldaImm (imm : Byte) : OwnRow.Statement (.ldaImm imm) := ⟨rfl, rfl, rfl⟩

theorem OwnRow.ldaAbsX (base : Word) : OwnRow.Statement (.ldaAbsX base) := ⟨rfl, rfl, rfl⟩

theorem OwnRow.bne (off : Byte) : OwnRow.Statement (.bne off) := ⟨rfl, rfl, rfl⟩

theorem OwnRow.inx : OwnRow.Statement .inx := ⟨rfl, rfl, rfl⟩

end Sys2Proof.Laws
end

