-- ==== Sys2Proof/Laws/Decode.lean ====
section
/-! SUPPORT. What a decode can answer: the inversion lemmas of the decode table and of the decoder. -/

namespace Sys2Proof

/-- A looked-up row is one of the table's and has the opcode asked for. -/
theorem lookup_some {op : Byte} {row : Row} (h : lookup op = some row) : row ∈ decodeTable ∧ row.opcode = op :=
  ⟨List.mem_of_find?_eq_some h, by simpa using List.find?_some h⟩

/-- Every row of the table is accepted by the resolver's mode count: its builder takes its mode's operand bytes. -/
theorem row_operandBytes {row : Row} (h : row ∈ decodeTable) :
    row.build.operandBytes = row.decoded.mode.operandBytes := by
  simp only [decodeTable, List.mem_cons, List.not_mem_nil, or_false] at h
  rcases h with rfl | rfl | rfl | rfl | rfl | rfl | rfl | rfl | rfl | rfl | rfl | rfl | rfl <;> rfl

/-- A row builds instructions with its own opcode, whose encoding is the opcode and the operand bytes. -/
theorem row_build {row : Row} (h : row ∈ decodeTable) :
    (∀ i, row.build = .plain i → encode i = [row.opcode]) ∧
    (∀ f, row.build = .ofByte f → ∀ b, encode (f b) = [row.opcode, b]) ∧
    (∀ f, row.build = .ofWord f → ∀ w, encode (f w) = [row.opcode, loByte w, hiByte w]) := by
  simp only [decodeTable, List.mem_cons, List.not_mem_nil, or_false] at h
  rcases h with rfl | rfl | rfl | rfl | rfl | rfl | rfl | rfl | rfl | rfl | rfl | rfl | rfl <;>
    refine ⟨?_, ?_, ?_⟩ <;> intro f hf <;> cases hf <;> first | rfl | (intro _; rfl)

/-- All the ways bytes can decode: an opcode byte of a row and as many operand bytes as its builder takes. -/
theorem decode_ok_cases {bytes : List Byte} {i : Instr} {rest : List Byte} (h : decode bytes = .ok (i, rest)) :
    ∃ op tail row, bytes = op :: tail ∧ lookup op = some row ∧
      ((row.build = .plain i ∧ tail = rest) ∨
       (∃ f b, row.build = .ofByte f ∧ tail = b :: rest ∧ i = f b) ∨
       (∃ f lo hi, row.build = .ofWord f ∧ tail = lo :: hi :: rest ∧ i = f (wordOf hi lo))) := by
  cases bytes with
  | nil => cases h
  | cons op tail =>
    unfold decode at h
    simp only at h
    cases hl : lookup op with
    | none =>
      rw [hl] at h
      cases h
    | some row =>
      rw [hl] at h
      refine ⟨op, tail, row, rfl, hl, ?_⟩
      simp only at h
      split at h
      · next j hb =>
        cases h
        exact .inl ⟨hb, rfl⟩
      · next f b tl hb =>
        cases h
        exact .inr (.inl ⟨f, b, hb, rfl, rfl⟩)
      · next f lo hi tl hb =>
        cases h
        exact .inr (.inr ⟨f, lo, hi, hb, rfl, rfl⟩)
      · cases h

/-- A byte is unknown exactly if no row has it. -/
theorem decodeOpcode_eq_none {op : Byte} : decodeOpcode op = none ↔ lookup op = none := by
  simp [decodeOpcode]

theorem decodeOpcode_eq_some {op : Byte} {d : Decoded} :
    decodeOpcode op = some d ↔ ∃ row, lookup op = some row ∧ row.decoded = d := by
  simp [decodeOpcode]

end Sys2Proof
end

