-- ==== Sys2Proof/Laws/State.lean ====
section
/-! SUPPORT. One lemma per field per update of State (true by rfl), so that no proof unfolds a record update. -/

namespace Sys2Proof.Machine

variable (s : State)

@[simp] theorem State.setA_a (v : Byte) : (s.setA v).a = v := rfl
@[simp] theorem State.setA_x (v : Byte) : (s.setA v).x = s.x := rfl
@[simp] theorem State.setA_y (v : Byte) : (s.setA v).y = s.y := rfl
@[simp] theorem State.setA_sp (v : Byte) : (s.setA v).sp = s.sp := rfl
@[simp] theorem State.setA_p (v : Byte) : (s.setA v).p = s.p := rfl
@[simp] theorem State.setA_pc (v : Byte) : (s.setA v).pc = s.pc := rfl
@[simp] theorem State.setA_mem (v : Byte) : (s.setA v).mem = s.mem := rfl
@[simp] theorem State.setA_vram (v : Byte) : (s.setA v).vram = s.vram := rfl
@[simp] theorem State.setA_cur (v : Byte) : (s.setA v).cur = s.cur := rfl
@[simp] theorem State.setA_tmp (v : Byte) : (s.setA v).tmp = s.tmp := rfl
@[simp] theorem State.setA_fineX (v : Byte) : (s.setA v).fineX = s.fineX := rfl
@[simp] theorem State.setA_toggle (v : Byte) : (s.setA v).toggle = s.toggle := rfl
@[simp] theorem State.setA_ppu (v : Byte) : (s.setA v).ppu = s.ppu := rfl
@[simp] theorem State.setA_halted (v : Byte) : (s.setA v).halted = s.halted := rfl

@[simp] theorem State.setX_a (v : Byte) : (s.setX v).a = s.a := rfl
@[simp] theorem State.setX_x (v : Byte) : (s.setX v).x = v := rfl
@[simp] theorem State.setX_y (v : Byte) : (s.setX v).y = s.y := rfl
@[simp] theorem State.setX_sp (v : Byte) : (s.setX v).sp = s.sp := rfl
@[simp] theorem State.setX_p (v : Byte) : (s.setX v).p = s.p := rfl
@[simp] theorem State.setX_pc (v : Byte) : (s.setX v).pc = s.pc := rfl
@[simp] theorem State.setX_mem (v : Byte) : (s.setX v).mem = s.mem := rfl
@[simp] theorem State.setX_vram (v : Byte) : (s.setX v).vram = s.vram := rfl
@[simp] theorem State.setX_cur (v : Byte) : (s.setX v).cur = s.cur := rfl
@[simp] theorem State.setX_tmp (v : Byte) : (s.setX v).tmp = s.tmp := rfl
@[simp] theorem State.setX_fineX (v : Byte) : (s.setX v).fineX = s.fineX := rfl
@[simp] theorem State.setX_toggle (v : Byte) : (s.setX v).toggle = s.toggle := rfl
@[simp] theorem State.setX_ppu (v : Byte) : (s.setX v).ppu = s.ppu := rfl
@[simp] theorem State.setX_halted (v : Byte) : (s.setX v).halted = s.halted := rfl

@[simp] theorem State.setY_a (v : Byte) : (s.setY v).a = s.a := rfl
@[simp] theorem State.setY_x (v : Byte) : (s.setY v).x = s.x := rfl
@[simp] theorem State.setY_y (v : Byte) : (s.setY v).y = v := rfl
@[simp] theorem State.setY_sp (v : Byte) : (s.setY v).sp = s.sp := rfl
@[simp] theorem State.setY_p (v : Byte) : (s.setY v).p = s.p := rfl
@[simp] theorem State.setY_pc (v : Byte) : (s.setY v).pc = s.pc := rfl
@[simp] theorem State.setY_mem (v : Byte) : (s.setY v).mem = s.mem := rfl
@[simp] theorem State.setY_vram (v : Byte) : (s.setY v).vram = s.vram := rfl
@[simp] theorem State.setY_cur (v : Byte) : (s.setY v).cur = s.cur := rfl
@[simp] theorem State.setY_tmp (v : Byte) : (s.setY v).tmp = s.tmp := rfl
@[simp] theorem State.setY_fineX (v : Byte) : (s.setY v).fineX = s.fineX := rfl
@[simp] theorem State.setY_toggle (v : Byte) : (s.setY v).toggle = s.toggle := rfl
@[simp] theorem State.setY_ppu (v : Byte) : (s.setY v).ppu = s.ppu := rfl
@[simp] theorem State.setY_halted (v : Byte) : (s.setY v).halted = s.halted := rfl

@[simp] theorem State.setSp_a (v : Byte) : (s.setSp v).a = s.a := rfl
@[simp] theorem State.setSp_x (v : Byte) : (s.setSp v).x = s.x := rfl
@[simp] theorem State.setSp_y (v : Byte) : (s.setSp v).y = s.y := rfl
@[simp] theorem State.setSp_sp (v : Byte) : (s.setSp v).sp = v := rfl
@[simp] theorem State.setSp_p (v : Byte) : (s.setSp v).p = s.p := rfl
@[simp] theorem State.setSp_pc (v : Byte) : (s.setSp v).pc = s.pc := rfl
@[simp] theorem State.setSp_mem (v : Byte) : (s.setSp v).mem = s.mem := rfl
@[simp] theorem State.setSp_vram (v : Byte) : (s.setSp v).vram = s.vram := rfl
@[simp] theorem State.setSp_cur (v : Byte) : (s.setSp v).cur = s.cur := rfl
@[simp] theorem State.setSp_tmp (v : Byte) : (s.setSp v).tmp = s.tmp := rfl
@[simp] theorem State.setSp_fineX (v : Byte) : (s.setSp v).fineX = s.fineX := rfl
@[simp] theorem State.setSp_toggle (v : Byte) : (s.setSp v).toggle = s.toggle := rfl
@[simp] theorem State.setSp_ppu (v : Byte) : (s.setSp v).ppu = s.ppu := rfl
@[simp] theorem State.setSp_halted (v : Byte) : (s.setSp v).halted = s.halted := rfl

@[simp] theorem State.setP_a (v : Byte) : (s.setP v).a = s.a := rfl
@[simp] theorem State.setP_x (v : Byte) : (s.setP v).x = s.x := rfl
@[simp] theorem State.setP_y (v : Byte) : (s.setP v).y = s.y := rfl
@[simp] theorem State.setP_sp (v : Byte) : (s.setP v).sp = s.sp := rfl
@[simp] theorem State.setP_p (v : Byte) : (s.setP v).p = v := rfl
@[simp] theorem State.setP_pc (v : Byte) : (s.setP v).pc = s.pc := rfl
@[simp] theorem State.setP_mem (v : Byte) : (s.setP v).mem = s.mem := rfl
@[simp] theorem State.setP_vram (v : Byte) : (s.setP v).vram = s.vram := rfl
@[simp] theorem State.setP_cur (v : Byte) : (s.setP v).cur = s.cur := rfl
@[simp] theorem State.setP_tmp (v : Byte) : (s.setP v).tmp = s.tmp := rfl
@[simp] theorem State.setP_fineX (v : Byte) : (s.setP v).fineX = s.fineX := rfl
@[simp] theorem State.setP_toggle (v : Byte) : (s.setP v).toggle = s.toggle := rfl
@[simp] theorem State.setP_ppu (v : Byte) : (s.setP v).ppu = s.ppu := rfl
@[simp] theorem State.setP_halted (v : Byte) : (s.setP v).halted = s.halted := rfl

@[simp] theorem State.setPc_a (v : Word) : (s.setPc v).a = s.a := rfl
@[simp] theorem State.setPc_x (v : Word) : (s.setPc v).x = s.x := rfl
@[simp] theorem State.setPc_y (v : Word) : (s.setPc v).y = s.y := rfl
@[simp] theorem State.setPc_sp (v : Word) : (s.setPc v).sp = s.sp := rfl
@[simp] theorem State.setPc_p (v : Word) : (s.setPc v).p = s.p := rfl
@[simp] theorem State.setPc_pc (v : Word) : (s.setPc v).pc = v := rfl
@[simp] theorem State.setPc_mem (v : Word) : (s.setPc v).mem = s.mem := rfl
@[simp] theorem State.setPc_vram (v : Word) : (s.setPc v).vram = s.vram := rfl
@[simp] theorem State.setPc_cur (v : Word) : (s.setPc v).cur = s.cur := rfl
@[simp] theorem State.setPc_tmp (v : Word) : (s.setPc v).tmp = s.tmp := rfl
@[simp] theorem State.setPc_fineX (v : Word) : (s.setPc v).fineX = s.fineX := rfl
@[simp] theorem State.setPc_toggle (v : Word) : (s.setPc v).toggle = s.toggle := rfl
@[simp] theorem State.setPc_ppu (v : Word) : (s.setPc v).ppu = s.ppu := rfl
@[simp] theorem State.setPc_halted (v : Word) : (s.setPc v).halted = s.halted := rfl

@[simp] theorem State.setCur_a (v : Scroll) : (s.setCur v).a = s.a := rfl
@[simp] theorem State.setCur_x (v : Scroll) : (s.setCur v).x = s.x := rfl
@[simp] theorem State.setCur_y (v : Scroll) : (s.setCur v).y = s.y := rfl
@[simp] theorem State.setCur_sp (v : Scroll) : (s.setCur v).sp = s.sp := rfl
@[simp] theorem State.setCur_p (v : Scroll) : (s.setCur v).p = s.p := rfl
@[simp] theorem State.setCur_pc (v : Scroll) : (s.setCur v).pc = s.pc := rfl
@[simp] theorem State.setCur_mem (v : Scroll) : (s.setCur v).mem = s.mem := rfl
@[simp] theorem State.setCur_vram (v : Scroll) : (s.setCur v).vram = s.vram := rfl
@[simp] theorem State.setCur_cur (v : Scroll) : (s.setCur v).cur = v := rfl
@[simp] theorem State.setCur_tmp (v : Scroll) : (s.setCur v).tmp = s.tmp := rfl
@[simp] theorem State.setCur_fineX (v : Scroll) : (s.setCur v).fineX = s.fineX := rfl
@[simp] theorem State.setCur_toggle (v : Scroll) : (s.setCur v).toggle = s.toggle := rfl
@[simp] theorem State.setCur_ppu (v : Scroll) : (s.setCur v).ppu = s.ppu := rfl
@[simp] theorem State.setCur_halted (v : Scroll) : (s.setCur v).halted = s.halted := rfl

@[simp] theorem State.setTmp_a (v : Scroll) : (s.setTmp v).a = s.a := rfl
@[simp] theorem State.setTmp_x (v : Scroll) : (s.setTmp v).x = s.x := rfl
@[simp] theorem State.setTmp_y (v : Scroll) : (s.setTmp v).y = s.y := rfl
@[simp] theorem State.setTmp_sp (v : Scroll) : (s.setTmp v).sp = s.sp := rfl
@[simp] theorem State.setTmp_p (v : Scroll) : (s.setTmp v).p = s.p := rfl
@[simp] theorem State.setTmp_pc (v : Scroll) : (s.setTmp v).pc = s.pc := rfl
@[simp] theorem State.setTmp_mem (v : Scroll) : (s.setTmp v).mem = s.mem := rfl
@[simp] theorem State.setTmp_vram (v : Scroll) : (s.setTmp v).vram = s.vram := rfl
@[simp] theorem State.setTmp_cur (v : Scroll) : (s.setTmp v).cur = s.cur := rfl
@[simp] theorem State.setTmp_tmp (v : Scroll) : (s.setTmp v).tmp = v := rfl
@[simp] theorem State.setTmp_fineX (v : Scroll) : (s.setTmp v).fineX = s.fineX := rfl
@[simp] theorem State.setTmp_toggle (v : Scroll) : (s.setTmp v).toggle = s.toggle := rfl
@[simp] theorem State.setTmp_ppu (v : Scroll) : (s.setTmp v).ppu = s.ppu := rfl
@[simp] theorem State.setTmp_halted (v : Scroll) : (s.setTmp v).halted = s.halted := rfl

@[simp] theorem State.setFineX_a (v : BitVec 3) : (s.setFineX v).a = s.a := rfl
@[simp] theorem State.setFineX_x (v : BitVec 3) : (s.setFineX v).x = s.x := rfl
@[simp] theorem State.setFineX_y (v : BitVec 3) : (s.setFineX v).y = s.y := rfl
@[simp] theorem State.setFineX_sp (v : BitVec 3) : (s.setFineX v).sp = s.sp := rfl
@[simp] theorem State.setFineX_p (v : BitVec 3) : (s.setFineX v).p = s.p := rfl
@[simp] theorem State.setFineX_pc (v : BitVec 3) : (s.setFineX v).pc = s.pc := rfl
@[simp] theorem State.setFineX_mem (v : BitVec 3) : (s.setFineX v).mem = s.mem := rfl
@[simp] theorem State.setFineX_vram (v : BitVec 3) : (s.setFineX v).vram = s.vram := rfl
@[simp] theorem State.setFineX_cur (v : BitVec 3) : (s.setFineX v).cur = s.cur := rfl
@[simp] theorem State.setFineX_tmp (v : BitVec 3) : (s.setFineX v).tmp = s.tmp := rfl
@[simp] theorem State.setFineX_fineX (v : BitVec 3) : (s.setFineX v).fineX = v := rfl
@[simp] theorem State.setFineX_toggle (v : BitVec 3) : (s.setFineX v).toggle = s.toggle := rfl
@[simp] theorem State.setFineX_ppu (v : BitVec 3) : (s.setFineX v).ppu = s.ppu := rfl
@[simp] theorem State.setFineX_halted (v : BitVec 3) : (s.setFineX v).halted = s.halted := rfl

@[simp] theorem State.setToggle_a (v : Bool) : (s.setToggle v).a = s.a := rfl
@[simp] theorem State.setToggle_x (v : Bool) : (s.setToggle v).x = s.x := rfl
@[simp] theorem State.setToggle_y (v : Bool) : (s.setToggle v).y = s.y := rfl
@[simp] theorem State.setToggle_sp (v : Bool) : (s.setToggle v).sp = s.sp := rfl
@[simp] theorem State.setToggle_p (v : Bool) : (s.setToggle v).p = s.p := rfl
@[simp] theorem State.setToggle_pc (v : Bool) : (s.setToggle v).pc = s.pc := rfl
@[simp] theorem State.setToggle_mem (v : Bool) : (s.setToggle v).mem = s.mem := rfl
@[simp] theorem State.setToggle_vram (v : Bool) : (s.setToggle v).vram = s.vram := rfl
@[simp] theorem State.setToggle_cur (v : Bool) : (s.setToggle v).cur = s.cur := rfl
@[simp] theorem State.setToggle_tmp (v : Bool) : (s.setToggle v).tmp = s.tmp := rfl
@[simp] theorem State.setToggle_fineX (v : Bool) : (s.setToggle v).fineX = s.fineX := rfl
@[simp] theorem State.setToggle_toggle (v : Bool) : (s.setToggle v).toggle = v := rfl
@[simp] theorem State.setToggle_ppu (v : Bool) : (s.setToggle v).ppu = s.ppu := rfl
@[simp] theorem State.setToggle_halted (v : Bool) : (s.setToggle v).halted = s.halted := rfl

@[simp] theorem State.setPpu_a (v : Ppu) : (s.setPpu v).a = s.a := rfl
@[simp] theorem State.setPpu_x (v : Ppu) : (s.setPpu v).x = s.x := rfl
@[simp] theorem State.setPpu_y (v : Ppu) : (s.setPpu v).y = s.y := rfl
@[simp] theorem State.setPpu_sp (v : Ppu) : (s.setPpu v).sp = s.sp := rfl
@[simp] theorem State.setPpu_p (v : Ppu) : (s.setPpu v).p = s.p := rfl
@[simp] theorem State.setPpu_pc (v : Ppu) : (s.setPpu v).pc = s.pc := rfl
@[simp] theorem State.setPpu_mem (v : Ppu) : (s.setPpu v).mem = s.mem := rfl
@[simp] theorem State.setPpu_vram (v : Ppu) : (s.setPpu v).vram = s.vram := rfl
@[simp] theorem State.setPpu_cur (v : Ppu) : (s.setPpu v).cur = s.cur := rfl
@[simp] theorem State.setPpu_tmp (v : Ppu) : (s.setPpu v).tmp = s.tmp := rfl
@[simp] theorem State.setPpu_fineX (v : Ppu) : (s.setPpu v).fineX = s.fineX := rfl
@[simp] theorem State.setPpu_toggle (v : Ppu) : (s.setPpu v).toggle = s.toggle := rfl
@[simp] theorem State.setPpu_ppu (v : Ppu) : (s.setPpu v).ppu = v := rfl
@[simp] theorem State.setPpu_halted (v : Ppu) : (s.setPpu v).halted = s.halted := rfl

@[simp] theorem State.setHalted_a (v : Option FaultRecord) : (s.setHalted v).a = s.a := rfl
@[simp] theorem State.setHalted_x (v : Option FaultRecord) : (s.setHalted v).x = s.x := rfl
@[simp] theorem State.setHalted_y (v : Option FaultRecord) : (s.setHalted v).y = s.y := rfl
@[simp] theorem State.setHalted_sp (v : Option FaultRecord) : (s.setHalted v).sp = s.sp := rfl
@[simp] theorem State.setHalted_p (v : Option FaultRecord) : (s.setHalted v).p = s.p := rfl
@[simp] theorem State.setHalted_pc (v : Option FaultRecord) : (s.setHalted v).pc = s.pc := rfl
@[simp] theorem State.setHalted_mem (v : Option FaultRecord) : (s.setHalted v).mem = s.mem := rfl
@[simp] theorem State.setHalted_vram (v : Option FaultRecord) : (s.setHalted v).vram = s.vram := rfl
@[simp] theorem State.setHalted_cur (v : Option FaultRecord) : (s.setHalted v).cur = s.cur := rfl
@[simp] theorem State.setHalted_tmp (v : Option FaultRecord) : (s.setHalted v).tmp = s.tmp := rfl
@[simp] theorem State.setHalted_fineX (v : Option FaultRecord) : (s.setHalted v).fineX = s.fineX := rfl
@[simp] theorem State.setHalted_toggle (v : Option FaultRecord) : (s.setHalted v).toggle = s.toggle := rfl
@[simp] theorem State.setHalted_ppu (v : Option FaultRecord) : (s.setHalted v).ppu = s.ppu := rfl
@[simp] theorem State.setHalted_halted (v : Option FaultRecord) : (s.setHalted v).halted = v := rfl

@[simp] theorem State.store_a (a : Word) (v : Byte) : (s.store a v).a = s.a := rfl
@[simp] theorem State.store_x (a : Word) (v : Byte) : (s.store a v).x = s.x := rfl
@[simp] theorem State.store_y (a : Word) (v : Byte) : (s.store a v).y = s.y := rfl
@[simp] theorem State.store_sp (a : Word) (v : Byte) : (s.store a v).sp = s.sp := rfl
@[simp] theorem State.store_p (a : Word) (v : Byte) : (s.store a v).p = s.p := rfl
@[simp] theorem State.store_pc (a : Word) (v : Byte) : (s.store a v).pc = s.pc := rfl
@[simp] theorem State.store_mem (a : Word) (v : Byte) : (s.store a v).mem = s.mem.write a.toNat v := rfl
@[simp] theorem State.store_vram (a : Word) (v : Byte) : (s.store a v).vram = s.vram := rfl
@[simp] theorem State.store_cur (a : Word) (v : Byte) : (s.store a v).cur = s.cur := rfl
@[simp] theorem State.store_tmp (a : Word) (v : Byte) : (s.store a v).tmp = s.tmp := rfl
@[simp] theorem State.store_fineX (a : Word) (v : Byte) : (s.store a v).fineX = s.fineX := rfl
@[simp] theorem State.store_toggle (a : Word) (v : Byte) : (s.store a v).toggle = s.toggle := rfl
@[simp] theorem State.store_ppu (a : Word) (v : Byte) : (s.store a v).ppu = s.ppu := rfl
@[simp] theorem State.store_halted (a : Word) (v : Byte) : (s.store a v).halted = s.halted := rfl

@[simp] theorem State.vstore_a (a : VIndex) (v : Byte) : (s.vstore a v).a = s.a := rfl
@[simp] theorem State.vstore_x (a : VIndex) (v : Byte) : (s.vstore a v).x = s.x := rfl
@[simp] theorem State.vstore_y (a : VIndex) (v : Byte) : (s.vstore a v).y = s.y := rfl
@[simp] theorem State.vstore_sp (a : VIndex) (v : Byte) : (s.vstore a v).sp = s.sp := rfl
@[simp] theorem State.vstore_p (a : VIndex) (v : Byte) : (s.vstore a v).p = s.p := rfl
@[simp] theorem State.vstore_pc (a : VIndex) (v : Byte) : (s.vstore a v).pc = s.pc := rfl
@[simp] theorem State.vstore_mem (a : VIndex) (v : Byte) : (s.vstore a v).mem = s.mem := rfl
@[simp] theorem State.vstore_vram (a : VIndex) (v : Byte) : (s.vstore a v).vram = s.vram.write a.toNat v := rfl
@[simp] theorem State.vstore_cur (a : VIndex) (v : Byte) : (s.vstore a v).cur = s.cur := rfl
@[simp] theorem State.vstore_tmp (a : VIndex) (v : Byte) : (s.vstore a v).tmp = s.tmp := rfl
@[simp] theorem State.vstore_fineX (a : VIndex) (v : Byte) : (s.vstore a v).fineX = s.fineX := rfl
@[simp] theorem State.vstore_toggle (a : VIndex) (v : Byte) : (s.vstore a v).toggle = s.toggle := rfl
@[simp] theorem State.vstore_ppu (a : VIndex) (v : Byte) : (s.vstore a v).ppu = s.ppu := rfl
@[simp] theorem State.vstore_halted (a : VIndex) (v : Byte) : (s.vstore a v).halted = s.halted := rfl

@[simp] theorem State.setNZ_a (v : Byte) : (s.setNZ v).a = s.a := rfl
@[simp] theorem State.setNZ_x (v : Byte) : (s.setNZ v).x = s.x := rfl
@[simp] theorem State.setNZ_y (v : Byte) : (s.setNZ v).y = s.y := rfl
@[simp] theorem State.setNZ_sp (v : Byte) : (s.setNZ v).sp = s.sp := rfl
@[simp] theorem State.setNZ_p (v : Byte) : (s.setNZ v).p = Machine.setNZ s.p v := rfl
@[simp] theorem State.setNZ_pc (v : Byte) : (s.setNZ v).pc = s.pc := rfl
@[simp] theorem State.setNZ_mem (v : Byte) : (s.setNZ v).mem = s.mem := rfl
@[simp] theorem State.setNZ_vram (v : Byte) : (s.setNZ v).vram = s.vram := rfl
@[simp] theorem State.setNZ_cur (v : Byte) : (s.setNZ v).cur = s.cur := rfl
@[simp] theorem State.setNZ_tmp (v : Byte) : (s.setNZ v).tmp = s.tmp := rfl
@[simp] theorem State.setNZ_fineX (v : Byte) : (s.setNZ v).fineX = s.fineX := rfl
@[simp] theorem State.setNZ_toggle (v : Byte) : (s.setNZ v).toggle = s.toggle := rfl
@[simp] theorem State.setNZ_ppu (v : Byte) : (s.setNZ v).ppu = s.ppu := rfl
@[simp] theorem State.setNZ_halted (v : Byte) : (s.setNZ v).halted = s.halted := rfl

@[simp] theorem State.advancePc_a (n : Nat) : (s.advancePc n).a = s.a := rfl
@[simp] theorem State.advancePc_x (n : Nat) : (s.advancePc n).x = s.x := rfl
@[simp] theorem State.advancePc_y (n : Nat) : (s.advancePc n).y = s.y := rfl
@[simp] theorem State.advancePc_sp (n : Nat) : (s.advancePc n).sp = s.sp := rfl
@[simp] theorem State.advancePc_p (n : Nat) : (s.advancePc n).p = s.p := rfl
@[simp] theorem State.advancePc_pc (n : Nat) : (s.advancePc n).pc = s.pc + BitVec.ofNat 16 n := rfl
@[simp] theorem State.advancePc_mem (n : Nat) : (s.advancePc n).mem = s.mem := rfl
@[simp] theorem State.advancePc_vram (n : Nat) : (s.advancePc n).vram = s.vram := rfl
@[simp] theorem State.advancePc_cur (n : Nat) : (s.advancePc n).cur = s.cur := rfl
@[simp] theorem State.advancePc_tmp (n : Nat) : (s.advancePc n).tmp = s.tmp := rfl
@[simp] theorem State.advancePc_fineX (n : Nat) : (s.advancePc n).fineX = s.fineX := rfl
@[simp] theorem State.advancePc_toggle (n : Nat) : (s.advancePc n).toggle = s.toggle := rfl
@[simp] theorem State.advancePc_ppu (n : Nat) : (s.advancePc n).ppu = s.ppu := rfl
@[simp] theorem State.advancePc_halted (n : Nat) : (s.advancePc n).halted = s.halted := rfl

@[simp] theorem State.advanceCur_a : s.advanceCur.a = s.a := rfl
@[simp] theorem State.advanceCur_x : s.advanceCur.x = s.x := rfl
@[simp] theorem State.advanceCur_y : s.advanceCur.y = s.y := rfl
@[simp] theorem State.advanceCur_sp : s.advanceCur.sp = s.sp := rfl
@[simp] theorem State.advanceCur_p : s.advanceCur.p = s.p := rfl
@[simp] theorem State.advanceCur_pc : s.advanceCur.pc = s.pc := rfl
@[simp] theorem State.advanceCur_mem : s.advanceCur.mem = s.mem := rfl
@[simp] theorem State.advanceCur_vram : s.advanceCur.vram = s.vram := rfl
@[simp] theorem State.advanceCur_cur : s.advanceCur.cur = s.cur + s.increment := rfl
@[simp] theorem State.advanceCur_tmp : s.advanceCur.tmp = s.tmp := rfl
@[simp] theorem State.advanceCur_fineX : s.advanceCur.fineX = s.fineX := rfl
@[simp] theorem State.advanceCur_toggle : s.advanceCur.toggle = s.toggle := rfl
@[simp] theorem State.advanceCur_ppu : s.advanceCur.ppu = s.ppu := rfl
@[simp] theorem State.advanceCur_halted : s.advanceCur.halted = s.halted := rfl

@[simp] theorem State.raise_a (c : Cause) : (s.raise c).a = s.a := rfl
@[simp] theorem State.raise_x (c : Cause) : (s.raise c).x = s.x := rfl
@[simp] theorem State.raise_y (c : Cause) : (s.raise c).y = s.y := rfl
@[simp] theorem State.raise_sp (c : Cause) : (s.raise c).sp = s.sp := rfl
@[simp] theorem State.raise_p (c : Cause) : (s.raise c).p = s.p := rfl
@[simp] theorem State.raise_pc (c : Cause) : (s.raise c).pc = s.pc := rfl
@[simp] theorem State.raise_mem (c : Cause) : (s.raise c).mem = s.mem := rfl
@[simp] theorem State.raise_vram (c : Cause) : (s.raise c).vram = s.vram := rfl
@[simp] theorem State.raise_cur (c : Cause) : (s.raise c).cur = s.cur := rfl
@[simp] theorem State.raise_tmp (c : Cause) : (s.raise c).tmp = s.tmp := rfl
@[simp] theorem State.raise_fineX (c : Cause) : (s.raise c).fineX = s.fineX := rfl
@[simp] theorem State.raise_toggle (c : Cause) : (s.raise c).toggle = s.toggle := rfl
@[simp] theorem State.raise_ppu (c : Cause) : (s.raise c).ppu = s.ppu := rfl
@[simp] theorem State.raise_halted (c : Cause) : (s.raise c).halted = some ⟨c, s.registers⟩ := rfl

/-- Two states with equal fields are equal. -/
theorem State.ext_fields {s t : State} (ha : s.a = t.a) (hx : s.x = t.x) (hy : s.y = t.y) (hsp : s.sp = t.sp)
    (hp : s.p = t.p) (hpc : s.pc = t.pc) (hmem : s.mem = t.mem) (hvram : s.vram = t.vram) (hcur : s.cur = t.cur)
    (htmp : s.tmp = t.tmp) (hfine : s.fineX = t.fineX) (htog : s.toggle = t.toggle) (hppu : s.ppu = t.ppu)
    (hhalt : s.halted = t.halted) : s = t := by
  cases s
  cases t
  simp_all

end Sys2Proof.Machine
end

