-- ==== Sys2Proof/Laws/Ops.lean ====
section
/-! SUPPORT. One lemma per shared operation that says once everything it does: raw access, ports, MemRead, MemWrite,
the stack, the resolver. -/

namespace Sys2Proof.Machine

variable (s : State)

/-! ### Addresses -/

/-- The ports, one by one (20_memory.md R62). -/
theorem isPort_iff (a : Word) : isPort a = true ↔
    a = 0x2000#16 ∨ a = 0x2002#16 ∨ a = 0x2005#16 ∨ a = 0x2006#16 ∨ a = 0x2007#16 := by
  simp [isPort, ports]

theorem not_isPort_iff (a : Word) : isPort a = false ↔
    a ≠ 0x2000#16 ∧ a ≠ 0x2002#16 ∧ a ≠ 0x2005#16 ∧ a ≠ 0x2006#16 ∧ a ≠ 0x2007#16 := by
  rw [← Bool.not_eq_true, isPort_iff]
  simp only [not_or, ne_eq]

theorem zext16_toNat (b : Byte) : (zext16 b).toNat = b.toNat := by
  have := b.isLt
  simp only [zext16, BitVec.toNat_setWidth]
  omega

/-- A zero-page address is no port. -/
theorem isPort_zext16 (b : Byte) : isPort (zext16 b) = false := by
  have := b.isLt
  rw [not_isPort_iff]
  simp only [ne_eq, ← BitVec.toNat_inj, zext16_toNat, BitVec.toNat_ofNat]
  omega

theorem stackAddress_toNat : s.stackAddress.toNat = 256 + s.sp.toNat := by
  have := s.sp.isLt
  simp only [State.stackAddress, BitVec.toNat_add, zext16_toNat, BitVec.toNat_ofNat]
  omega

/-- A stack address is no port (20_memory.md R72). -/
theorem isPort_stackAddress : isPort s.stackAddress = false := by
  have := s.sp.isLt
  rw [not_isPort_iff]
  simp only [ne_eq, ← BitVec.toNat_inj, stackAddress_toNat, BitVec.toNat_ofNat]
  omega

theorem vindex_toNat : s.vindex.toNat = s.cur.toNat % 0x4000 := by
  simp [State.vindex]

/-! ### Raw access -/

theorem State.load_store (a : Word) (v : Byte) (b : Word) :
    (s.store a v).load b = if b = a then v else s.load b := by
  unfold State.load State.store
  rw [Memory.read_write]
  simp only [BitVec.toNat_inj]

@[simp] theorem State.load_store_same (a : Word) (v : Byte) : (s.store a v).load a = v := by
  rw [State.load_store, if_pos rfl]

theorem State.load_store_other {a b : Word} (v : Byte) (h : b ≠ a) : (s.store a v).load b = s.load b := by
  rw [State.load_store, if_neg h]

theorem State.vload_vstore (a : VIndex) (v : Byte) (b : VIndex) :
    (s.vstore a v).vload b = if b = a then v else s.vload b := by
  unfold State.vload State.vstore
  rw [Memory.read_write]
  simp only [BitVec.toNat_inj]

/-- Reads of AddressSpace depend on `mem` alone. -/
theorem State.load_congr {s t : State} (h : t.mem = s.mem) (a : Word) : t.load a = s.load a := by
  unfold State.load
  rw [h]

/-- Reads of VRam depend on `vram` alone. -/
theorem State.vload_congr {s t : State} (h : t.vram = s.vram) (a : VIndex) : t.vload a = s.vload a := by
  unfold State.vload
  rw [h]

/-! ### MemRead -/

@[simp] theorem State.memRead_fst (a : Word) : (s.memRead a).1 = s.readByte a := rfl

@[simp] theorem State.memRead_snd (a : Word) : (s.memRead a).2 = s.afterRead a := rfl

/-- A read away from 0x2002 and 0x2007 has no side effect (20_memory.md R69). -/
theorem State.afterRead_of_not_isPort {a : Word} (h : isPort a = false) : s.afterRead a = s := by
  obtain ⟨-, h2, -, -, h7⟩ := (not_isPort_iff a).mp h
  rw [State.afterRead, if_neg h2, if_neg h7]

theorem State.readByte_of_not_isPort {a : Word} (h : isPort a = false) : s.readByte a = s.load a := by
  obtain ⟨-, -, -, -, h7⟩ := (not_isPort_iff a).mp h
  rw [State.readByte, if_neg h7]

/-- All that a read changes: the toggle at 0x2002, `cur` at 0x2007 (20_memory.md R60). -/
theorem State.afterRead_eq (a : Word) :
    s.afterRead a =
      { s with
        toggle := if a = 0x2002#16 then false else s.toggle
        cur := if a = 0x2007#16 then s.cur + s.increment else s.cur } := by
  unfold State.afterRead
  split
  · next h =>
    subst h
    rfl
  · split <;> rfl

@[simp] theorem State.afterRead_a (a : Word) : (s.afterRead a).a = s.a := by
  rw [State.afterRead_eq]

@[simp] theorem State.afterRead_x (a : Word) : (s.afterRead a).x = s.x := by
  rw [State.afterRead_eq]

@[simp] theorem State.afterRead_y (a : Word) : (s.afterRead a).y = s.y := by
  rw [State.afterRead_eq]

@[simp] theorem State.afterRead_sp (a : Word) : (s.afterRead a).sp = s.sp := by
  rw [State.afterRead_eq]

@[simp] theorem State.afterRead_p (a : Word) : (s.afterRead a).p = s.p := by
  rw [State.afterRead_eq]

@[simp] theorem State.afterRead_pc (a : Word) : (s.afterRead a).pc = s.pc := by
  rw [State.afterRead_eq]

@[simp] theorem State.afterRead_mem (a : Word) : (s.afterRead a).mem = s.mem := by
  rw [State.afterRead_eq]

@[simp] theorem State.afterRead_vram (a : Word) : (s.afterRead a).vram = s.vram := by
  rw [State.afterRead_eq]

@[simp] theorem State.afterRead_tmp (a : Word) : (s.afterRead a).tmp = s.tmp := by
  rw [State.afterRead_eq]

@[simp] theorem State.afterRead_fineX (a : Word) : (s.afterRead a).fineX = s.fineX := by
  rw [State.afterRead_eq]

@[simp] theorem State.afterRead_ppu (a : Word) : (s.afterRead a).ppu = s.ppu := by
  rw [State.afterRead_eq]

@[simp] theorem State.afterRead_halted (a : Word) : (s.afterRead a).halted = s.halted := by
  rw [State.afterRead_eq]

theorem State.afterRead_toggle (a : Word) :
    (s.afterRead a).toggle = if a = 0x2002#16 then false else s.toggle := by
  rw [State.afterRead_eq]

theorem State.afterRead_cur (a : Word) :
    (s.afterRead a).cur = if a = 0x2007#16 then s.cur + s.increment else s.cur := by
  rw [State.afterRead_eq]

/-! ### MemWrite -/

/-- A write away from the ports, and one to 0x2002, has no port effect (20_memory.md R61, R64). -/
theorem State.portWrite_of_ne {a : Word} (v : Byte) (h0 : a ≠ 0x2000#16) (h5 : a ≠ 0x2005#16) (h6 : a ≠ 0x2006#16)
    (h7 : a ≠ 0x2007#16) : s.portWrite a v = s := by
  rw [State.portWrite, if_neg h0, if_neg h5, if_neg h6, if_neg h7]

theorem State.memWrite_of_not_isPort {a : Word} (v : Byte) (h : isPort a = false) : s.memWrite a v = s.store a v := by
  obtain ⟨h0, -, h5, h6, h7⟩ := (not_isPort_iff a).mp h
  rw [State.memWrite, State.portWrite_of_ne s v h0 h5 h6 h7]

/-- All that the port effect of a write changes (20_memory.md R63, R65, R66, R67). -/
theorem State.portWrite_eq (a : Word) (v : Byte) :
    s.portWrite a v =
      { s with
        cur := (s.portWrite a v).cur
        tmp := (s.portWrite a v).tmp
        fineX := (s.portWrite a v).fineX
        toggle := (s.portWrite a v).toggle
        vram := (s.portWrite a v).vram } := by
  unfold State.portWrite
  split
  · rfl
  split
  · unfold State.portWrite2005
    split <;> rfl
  split
  · unfold State.portWrite2006
    split <;> rfl
  split <;> rfl

@[simp] theorem State.portWrite_a (a : Word) (v : Byte) : (s.portWrite a v).a = s.a := by
  rw [State.portWrite_eq]

@[simp] theorem State.portWrite_x (a : Word) (v : Byte) : (s.portWrite a v).x = s.x := by
  rw [State.portWrite_eq]

@[simp] theorem State.portWrite_y (a : Word) (v : Byte) : (s.portWrite a v).y = s.y := by
  rw [State.portWrite_eq]

@[simp] theorem State.portWrite_sp (a : Word) (v : Byte) : (s.portWrite a v).sp = s.sp := by
  rw [State.portWrite_eq]

@[simp] theorem State.portWrite_p (a : Word) (v : Byte) : (s.portWrite a v).p = s.p := by
  rw [State.portWrite_eq]

@[simp] theorem State.portWrite_pc (a : Word) (v : Byte) : (s.portWrite a v).pc = s.pc := by
  rw [State.portWrite_eq]

@[simp] theorem State.portWrite_mem (a : Word) (v : Byte) : (s.portWrite a v).mem = s.mem := by
  rw [State.portWrite_eq]

@[simp] theorem State.portWrite_ppu (a : Word) (v : Byte) : (s.portWrite a v).ppu = s.ppu := by
  rw [State.portWrite_eq]

@[simp] theorem State.portWrite_halted (a : Word) (v : Byte) : (s.portWrite a v).halted = s.halted := by
  rw [State.portWrite_eq]

/-- The toggle after the port effect of a write: the pair ports flip it. -/
theorem State.portWrite_toggle (a : Word) (v : Byte) : (s.portWrite a v).toggle =
    if a = 0x2005#16 ∨ a = 0x2006#16 then !s.toggle else s.toggle := by
  unfold State.portWrite
  split
  · next h =>
    subst h
    rfl
  split
  · next h =>
    subst h
    rfl
  split
  · next h =>
    subst h
    rfl
  · next h5 h6 =>
    rw [if_neg (not_or.mpr ⟨h5, h6⟩)]
    split <;> rfl

/-- `fine_x` after the port effect of a write: only the first 0x2005 write sets it. -/
theorem State.portWrite_fineX (a : Word) (v : Byte) : (s.portWrite a v).fineX =
    if a = 0x2005#16 ∧ s.toggle = false then v.setWidth 3 else s.fineX := by
  by_cases h5 : a = 0x2005#16
  · subst h5
    change (s.portWrite2005 v).fineX = _
    unfold State.portWrite2005
    cases s.toggle <;> simp
  · rw [if_neg (fun h => h5 h.1), State.portWrite, if_neg h5]
    split
    · rfl
    split
    · unfold State.portWrite2006
      cases s.toggle <;> rfl
    split <;> rfl

/-- `cur` after the port effect of a write: the second 0x2006 write and 0x2007 set it. -/
theorem State.portWrite_cur (a : Word) (v : Byte) : (s.portWrite a v).cur =
    if a = 0x2006#16 ∧ s.toggle = true then setField s.tmp 0 8 v
    else if a = 0x2007#16 then s.cur + s.increment else s.cur := by
  by_cases h6 : a = 0x2006#16
  · subst h6
    change (s.portWrite2006 v).cur = _
    unfold State.portWrite2006
    cases s.toggle <;> rfl
  · rw [if_neg (fun h => h6 h.1), State.portWrite, if_neg h6]
    split
    · next h =>
      subst h
      rfl
    split
    · next h =>
      subst h
      unfold State.portWrite2005
      cases s.toggle <;> rfl
    split <;> rfl

/-- `tmp` after the port effect of a write. -/
theorem State.portWrite_tmp (a : Word) (v : Byte) : (s.portWrite a v).tmp =
    if a = 0x2000#16 then setField s.tmp 10 2 v
    else if a = 0x2005#16 then
      (if s.toggle then setField (setField s.tmp 12 3 v) 5 5 (v >>> 3) else setField s.tmp 0 5 (v >>> 3))
    else if a = 0x2006#16 then
      (if s.toggle then setField s.tmp 0 8 v else setField (setField s.tmp 8 6 v) 14 1 0#8)
    else s.tmp := by
  unfold State.portWrite
  split
  · rfl
  split
  · unfold State.portWrite2005
    cases s.toggle <;> rfl
  split
  · unfold State.portWrite2006
    cases s.toggle <;> rfl
  split <;> rfl

/-- VRam after the port effect of a write: only 0x2007 stores there. -/
theorem State.portWrite_vram (a : Word) (v : Byte) : (s.portWrite a v).vram =
    if a = 0x2007#16 then s.vram.write s.vindex.toNat v else s.vram := by
  unfold State.portWrite
  split
  · next h =>
    subst h
    rfl
  split
  · next h =>
    subst h
    unfold State.portWrite2005
    cases s.toggle <;> rfl
  split
  · next h =>
    subst h
    unfold State.portWrite2006
    cases s.toggle <;> rfl
  split <;> rfl

@[simp] theorem State.memWrite_a (a : Word) (v : Byte) : (s.memWrite a v).a = s.a :=
  State.portWrite_a s a v

@[simp] theorem State.memWrite_x (a : Word) (v : Byte) : (s.memWrite a v).x = s.x :=
  State.portWrite_x s a v

@[simp] theorem State.memWrite_y (a : Word) (v : Byte) : (s.memWrite a v).y = s.y :=
  State.portWrite_y s a v

@[simp] theorem State.memWrite_sp (a : Word) (v : Byte) : (s.memWrite a v).sp = s.sp :=
  State.portWrite_sp s a v

@[simp] theorem State.memWrite_p (a : Word) (v : Byte) : (s.memWrite a v).p = s.p :=
  State.portWrite_p s a v

@[simp] theorem State.memWrite_pc (a : Word) (v : Byte) : (s.memWrite a v).pc = s.pc :=
  State.portWrite_pc s a v

@[simp] theorem State.memWrite_ppu (a : Word) (v : Byte) : (s.memWrite a v).ppu = s.ppu :=
  State.portWrite_ppu s a v

@[simp] theorem State.memWrite_halted (a : Word) (v : Byte) : (s.memWrite a v).halted = s.halted :=
  State.portWrite_halted s a v

@[simp] theorem State.memWrite_toggle (a : Word) (v : Byte) : (s.memWrite a v).toggle = (s.portWrite a v).toggle := rfl

@[simp] theorem State.memWrite_fineX (a : Word) (v : Byte) : (s.memWrite a v).fineX = (s.portWrite a v).fineX := rfl

@[simp] theorem State.memWrite_cur (a : Word) (v : Byte) : (s.memWrite a v).cur = (s.portWrite a v).cur := rfl

@[simp] theorem State.memWrite_tmp (a : Word) (v : Byte) : (s.memWrite a v).tmp = (s.portWrite a v).tmp := rfl

@[simp] theorem State.memWrite_vram (a : Word) (v : Byte) : (s.memWrite a v).vram = (s.portWrite a v).vram := rfl

@[simp] theorem State.memWrite_mem (a : Word) (v : Byte) : (s.memWrite a v).mem = s.mem.write a.toNat v := by
  unfold State.memWrite State.store
  rw [State.portWrite_mem]

/-- AddressSpace after a write, whatever the port effect (20_memory.md R61). -/
theorem State.load_memWrite (a : Word) (v : Byte) (b : Word) :
    (s.memWrite a v).load b = if b = a then v else s.load b := by
  unfold State.memWrite
  rw [State.load_store, State.load_congr (State.portWrite_mem s a v)]

/-! ### The stack -/

/-- All that a push does (20_memory.md R72). -/
theorem State.push_eq (v : Byte) : s.push v = (s.store s.stackAddress v).setSp (s.sp - 1#8) := by
  unfold State.push
  rw [State.memWrite_of_not_isPort _ _ (isPort_stackAddress s)]
  rfl

@[simp] theorem State.push_a (v : Byte) : (s.push v).a = s.a := by
  rw [State.push_eq]
  rfl

@[simp] theorem State.push_x (v : Byte) : (s.push v).x = s.x := by
  rw [State.push_eq]
  rfl

@[simp] theorem State.push_y (v : Byte) : (s.push v).y = s.y := by
  rw [State.push_eq]
  rfl

@[simp] theorem State.push_p (v : Byte) : (s.push v).p = s.p := by
  rw [State.push_eq]
  rfl

@[simp] theorem State.push_pc (v : Byte) : (s.push v).pc = s.pc := by
  rw [State.push_eq]
  rfl

@[simp] theorem State.push_vram (v : Byte) : (s.push v).vram = s.vram := by
  rw [State.push_eq]
  rfl

@[simp] theorem State.push_cur (v : Byte) : (s.push v).cur = s.cur := by
  rw [State.push_eq]
  rfl

@[simp] theorem State.push_tmp (v : Byte) : (s.push v).tmp = s.tmp := by
  rw [State.push_eq]
  rfl

@[simp] theorem State.push_fineX (v : Byte) : (s.push v).fineX = s.fineX := by
  rw [State.push_eq]
  rfl

@[simp] theorem State.push_toggle (v : Byte) : (s.push v).toggle = s.toggle := by
  rw [State.push_eq]
  rfl

@[simp] theorem State.push_ppu (v : Byte) : (s.push v).ppu = s.ppu := by
  rw [State.push_eq]
  rfl

@[simp] theorem State.push_halted (v : Byte) : (s.push v).halted = s.halted := by
  rw [State.push_eq]
  rfl

@[simp] theorem State.push_sp (v : Byte) : (s.push v).sp = s.sp - 1#8 := by
  rw [State.push_eq]
  rfl

theorem State.load_push (v : Byte) (b : Word) :
    (s.push v).load b = if b = s.stackAddress then v else s.load b := by
  rw [State.push_eq]
  exact State.load_store s s.stackAddress v b

/-! ### The canonical form is kept -/

theorem memWrite_wf {s : State} (a : Word) (v : Byte) (h : s.mem.wf addressSpaceSize = true) :
    (s.memWrite a v).mem.wf addressSpaceSize = true := by
  rw [State.memWrite_mem]
  exact Memory.wf_write h a.isLt v

theorem memWrite_vram_wf {s : State} (a : Word) (v : Byte) (h : s.vram.wf vramSize = true) :
    (s.memWrite a v).vram.wf vramSize = true := by
  rw [State.memWrite_vram, State.portWrite_vram]
  split
  · exact Memory.wf_write h s.vindex.isLt v
  · exact h

theorem push_wf {s : State} (v : Byte) (h : s.mem.wf addressSpaceSize = true) :
    (s.push v).mem.wf addressSpaceSize = true := by
  rw [State.push_eq]
  exact Memory.wf_write h s.stackAddress.isLt v

/-! ### The resolver -/

/-- (zp,X) resolved: the pointer reads are in the zero page and have no side effect; the value is read through the
pointer (40_pipeline_addressing.md R118). -/
theorem resolveIndexedIndirect_value {m : Mnemonic} (hm : needsValue m = true) (zp : Byte) :
    resolveIndexedIndirect m zp s =
      (.value ((s.advancePc 1).readByte (s.pointer zp)), (s.advancePc 1).afterRead (s.pointer zp)) := by
  unfold resolveIndexedIndirect
  simp only [hm, if_true, State.memRead_fst, State.memRead_snd, State.afterRead_of_not_isPort _ (isPort_zext16 _),
    State.readByte_of_not_isPort _ (isPort_zext16 _)]
  rfl

end Sys2Proof.Machine
end

