-- ==== Sys2Proof/Laws/Exec.lean ====
section
/-! SUPPORT. One equation per instruction: the next state that exec answers, written over the state it began in. -/

namespace Sys2Proof.Machine

variable (s : State)

/-- PC past the opcode byte and then past `n` operand bytes. -/
theorem pc_advance (pc : Word) (m n : Nat) :
    pc + BitVec.ofNat 16 m + BitVec.ofNat 16 n = pc + BitVec.ofNat 16 (m + n) := by
  rw [BitVec.add_assoc, BitVec.ofNat_add]

theorem exec_sei : exec .sei s = .next { s with p := setFlag s.p .i true, pc := s.pc + 1#16 } := rfl

theorem exec_txs : exec .txs s = .next { s with sp := s.x, pc := s.pc + 1#16 } := rfl

theorem exec_inx : exec .inx s =
    .next { s with x := s.x + 1#8, p := setNZ s.p (s.x + 1#8), pc := s.pc + 1#16 } := rfl

theorem exec_dey : exec .dey s =
    .next { s with y := s.y - 1#8, p := setNZ s.p (s.y - 1#8), pc := s.pc + 1#16 } := rfl

theorem exec_ldaImm (imm : Byte) : exec (.ldaImm imm) s =
    .next { s with a := imm, p := setNZ s.p imm, pc := s.pc + 2#16 } := by
  rw [← pc_advance s.pc 1 1]
  rfl

theorem exec_ldxImm (imm : Byte) : exec (.ldxImm imm) s =
    .next { s with x := imm, p := setNZ s.p imm, pc := s.pc + 2#16 } := by
  rw [← pc_advance s.pc 1 1]
  rfl

theorem exec_ldyImm (imm : Byte) : exec (.ldyImm imm) s =
    .next { s with y := imm, p := setNZ s.p imm, pc := s.pc + 2#16 } := by
  rw [← pc_advance s.pc 1 1]
  rfl

theorem exec_jmp (ea : Word) : exec (.jmp ea) s = .next { s with pc := ea } := rfl

theorem exec_bne (off : Byte) : exec (.bne off) s =
    .next { s with pc := if s.flag .z then s.pc + 2#16 else s.pc + 2#16 + sext16 off } := by
  rw [← pc_advance s.pc 1 1]
  rfl

/-- A read in a state whose PC has moved is the read in the state before, PC moved after. -/
theorem afterRead_setPc (pc : Word) (a : Word) : (s.setPc pc).afterRead a = (s.afterRead a).setPc pc := by
  rw [State.afterRead_eq, State.afterRead_eq]
  rfl

theorem exec_ldaAbsX (base : Word) : exec (.ldaAbsX base) s =
    .next { s.afterRead (s.absoluteX base) with
      a := s.readByte (s.absoluteX base)
      p := setNZ s.p (s.readByte (s.absoluteX base))
      pc := s.pc + 3#16 } := by
  have h := pc_advance s.pc 1 2
  have e := afterRead_setPc s (s.pc + BitVec.ofNat 16 1 + BitVec.ofNat 16 2) (s.absoluteX base)
  change Host.Outcome.next ((((s.setPc (s.pc + BitVec.ofNat 16 1 + BitVec.ofNat 16 2)).afterRead
    (s.absoluteX base)).setA (s.readByte (s.absoluteX base))).setNZ (s.readByte (s.absoluteX base))) = _
  rw [e, h]
  simp only [State.setNZ, State.setA, State.setP, State.setPc, State.afterRead_p]

theorem exec_andIndX (zp : Byte) : exec (.andIndX zp) s =
    .next { s.afterRead (s.pointer zp) with
      a := s.a &&& s.readByte (s.pointer zp)
      p := setNZ s.p (s.a &&& s.readByte (s.pointer zp))
      pc := s.pc + 2#16 } := by
  have e := afterRead_setPc s (s.pc + BitVec.ofNat 16 1 + BitVec.ofNat 16 1) (s.pointer zp)
  change finish s executeAnd (resolveIndexedIndirect .and zp (s.advancePc 1)) = _
  rw [resolveIndexedIndirect_value _ rfl]
  change Host.Outcome.next (((((s.setPc (s.pc + BitVec.ofNat 16 1 + BitVec.ofNat 16 1)).afterRead
    (s.pointer zp)).setA _).setNZ _)) = _
  rw [e, pc_advance s.pc 1 1]
  simp only [State.setNZ, State.setA, State.setP, State.setPc, State.afterRead_p, State.afterRead_a]
  rfl

/-- A write in a state whose PC has moved is the write in the state before, PC moved after. -/
theorem memWrite_setPc (pc : Word) (a : Word) (v : Byte) : (s.setPc pc).memWrite a v = (s.memWrite a v).setPc pc := by
  have hinc : (s.setPc pc).increment = s.increment := rfl
  have hidx : (s.setPc pc).vindex = s.vindex := rfl
  apply State.ext_fields <;>
    simp only [State.memWrite_a, State.memWrite_x, State.memWrite_y, State.memWrite_sp, State.memWrite_p,
      State.memWrite_pc, State.memWrite_mem, State.memWrite_vram, State.memWrite_cur, State.memWrite_tmp,
      State.memWrite_fineX, State.memWrite_toggle, State.memWrite_ppu, State.memWrite_halted, State.portWrite_vram,
      State.portWrite_cur, State.portWrite_tmp, State.portWrite_fineX, State.portWrite_toggle, State.setPc_a,
      State.setPc_x, State.setPc_y, State.setPc_sp, State.setPc_p, State.setPc_pc, State.setPc_mem, State.setPc_vram,
      State.setPc_cur, State.setPc_tmp, State.setPc_fineX, State.setPc_toggle, State.setPc_ppu, State.setPc_halted,
      hinc, hidx]
  all_goals rfl

theorem exec_sta (ea : Word) : exec (.sta ea) s = .next { s.memWrite ea s.a with pc := s.pc + 3#16 } := by
  have e := memWrite_setPc s (s.pc + BitVec.ofNat 16 1 + BitVec.ofNat 16 2) ea s.a
  change Host.Outcome.next ((s.setPc (s.pc + BitVec.ofNat 16 1 + BitVec.ofNat 16 2)).memWrite ea s.a) = _
  rw [e, pc_advance s.pc 1 2]
  rfl

theorem exec_jsr (ea : Word) : exec (.jsr ea) s =
    .next { (s.push (hiByte (s.pc + 2#16))).push (loByte (s.pc + 2#16)) with pc := ea } := by
  have h : s.pc + BitVec.ofNat 16 1 + BitVec.ofNat 16 2 - 1#16 = s.pc + 2#16 := by
    rw [pc_advance]
    bv_omega
  change Host.Outcome.next (((((s.advancePc 1).advancePc 2).push
    (hiByte (s.pc + BitVec.ofNat 16 1 + BitVec.ofNat 16 2 - 1#16))).push
    (loByte (s.pc + BitVec.ofNat 16 1 + BitVec.ofNat 16 2 - 1#16))).setPc ea) = _
  rw [h]
  simp only [State.push_eq]
  rfl

/-- Every instruction answers a next state, in which the PPU's own state and the fault record are as before. -/
theorem exec_next (i : Instr) : ∃ t, exec i s = .next t ∧ t.ppu = s.ppu ∧ t.halted = s.halted := by
  cases i with
  | jsr ea => exact ⟨_, exec_jsr s ea, by simp, by simp⟩
  | andIndX zp => exact ⟨_, exec_andIndX s zp, by simp, by simp⟩
  | jmp ea => exact ⟨_, exec_jmp s ea, rfl, rfl⟩
  | sei => exact ⟨_, exec_sei s, rfl, rfl⟩
  | dey => exact ⟨_, exec_dey s, rfl, rfl⟩
  | sta ea => exact ⟨_, exec_sta s ea, by simp, by simp⟩
  | txs => exact ⟨_, exec_txs s, rfl, rfl⟩
  | ldyImm imm => exact ⟨_, exec_ldyImm s imm, rfl, rfl⟩
  | ldxImm imm => exact ⟨_, exec_ldxImm s imm, rfl, rfl⟩
  | ldaImm imm => exact ⟨_, exec_ldaImm s imm, rfl, rfl⟩
  | ldaAbsX base => exact ⟨_, exec_ldaAbsX s base, by simp, by simp⟩
  | bne off => exact ⟨_, exec_bne s off, rfl, rfl⟩
  | inx => exact ⟨_, exec_inx s, rfl, rfl⟩

/-- Every instruction keeps the canonical form of both memories. -/
theorem exec_wf {i : Instr} {s t : State} (h : exec i s = .next t) (hm : s.mem.wf addressSpaceSize = true)
    (hv : s.vram.wf vramSize = true) : t.mem.wf addressSpaceSize = true ∧ t.vram.wf vramSize = true := by
  cases i with
  | jsr ea =>
    rw [exec_jsr] at h
    cases h
    exact ⟨push_wf _ (push_wf _ hm), by simpa using hv⟩
  | andIndX zp =>
    rw [exec_andIndX] at h
    cases h
    simp [hm, hv]
  | sta ea =>
    rw [exec_sta] at h
    cases h
    exact ⟨memWrite_wf _ _ hm, memWrite_vram_wf _ _ hv⟩
  | ldaAbsX base =>
    rw [exec_ldaAbsX] at h
    cases h
    simp [hm, hv]
  | bne off =>
    rw [exec_bne] at h
    cases h
    exact ⟨hm, hv⟩
  | jmp _ | sei | dey | txs | inx | ldaImm _ | ldxImm _ | ldyImm _ =>
    cases h
    exact ⟨hm, hv⟩

end Sys2Proof.Machine
end

