-- ==== Sys2Proof/Laws/Ppu.lean ====
section
/-! SUPPORT. The laws of the renderer: runs, the timing advance, and what each kind of cycle does. -/

namespace Sys2Proof.Machine

variable (v : PpuView) (p : Ppu)

@[simp] theorem hiByte_withLow (r : BitVec 16) (b : Byte) : hiByte (withLow r b) = hiByte r := by
  simp [withLow]

@[simp] theorem loByte_withLow (r : BitVec 16) (b : Byte) : loByte (withLow r b) = b := by
  simp [withLow]

@[simp] theorem hiByte_withHigh (r : BitVec 16) (b : Byte) : hiByte (withHigh r b) = b := by
  simp [withHigh]

@[simp] theorem loByte_withHigh (r : BitVec 16) (b : Byte) : loByte (withHigh r b) = loByte r := by
  simp [withHigh]

/-! ### Reads inside VRam -/

/-- An index that lies in VRam is read as it stands: the 14-bit mask changes nothing. -/
theorem PpuView.vread_of_lt {a : Nat} (h : a < vramSize) : v.vread a = v.vram.read a := by
  unfold PpuView.vread
  rw [Nat.mod_eq_of_lt h]

/-! ### Runs -/

@[simp] theorem Ppu.run_zero : Ppu.run v 0 p = p := rfl

theorem Ppu.run_succ (n : Nat) : Ppu.run v (n + 1) p = Ppu.run v n (p.step v) := rfl

/-- A run in two parts. -/
theorem Ppu.run_add (m n : Nat) : Ppu.run v (m + n) p = Ppu.run v n (Ppu.run v m p) := by
  induction m generalizing p with
  | zero => rw [Nat.zero_add, Ppu.run_zero]
  | succ m ih => rw [Nat.succ_add, Ppu.run_succ, ih, Ppu.run_succ]

/-- A run with its last step apart. -/
theorem Ppu.run_succ_last (n : Nat) : Ppu.run v (n + 1) p = (Ppu.run v n p).step v := by
  rw [Ppu.run_add]
  rfl

/-! ### The action leaves the position alone -/

@[simp] theorem Ppu.prefetch_scanline : (p.prefetch v).scanline = p.scanline := by
  unfold Ppu.prefetch
  simp only
  split
  · rfl
  split <;> rfl

@[simp] theorem Ppu.prefetch_cycle : (p.prefetch v).cycle = p.cycle := by
  unfold Ppu.prefetch
  simp only
  split
  · rfl
  split <;> rfl

@[simp] theorem Ppu.prefetch_pixels : (p.prefetch v).pixels = p.pixels := by
  unfold Ppu.prefetch
  simp only
  split
  · rfl
  split <;> rfl

@[simp] theorem Ppu.pixelCycle_scanline : (p.pixelCycle v).scanline = p.scanline := by
  unfold Ppu.pixelCycle
  simp only
  split <;> rfl

@[simp] theorem Ppu.pixelCycle_cycle : (p.pixelCycle v).cycle = p.cycle := by
  unfold Ppu.pixelCycle
  simp only
  split <;> rfl

@[simp] theorem Ppu.pixelCycle_pixels : (p.pixelCycle v).pixels = p.pixels ++ [p.pixel v] := by
  unfold Ppu.pixelCycle
  simp only
  split <;> rfl

/-- The action is a pixel cycle exactly on a pixel cycle's position, else a prefetch, else nothing. -/
theorem Ppu.action_cases :
    (p.onPixel = true ∧ p.action v = p.pixelCycle v) ∨
    (p.onPixel = false ∧ (p.action v = p.prefetch v ∨ p.action v = p)) := by
  unfold Ppu.action Ppu.visibleAction
  cases hp : p.onPixel with
  | true =>
    have hv : p.visible = true := by
      unfold Ppu.onPixel at hp
      simp only [Bool.and_eq_true] at hp
      exact hp.1.1
    exact .inl ⟨rfl, by simp [hv]⟩
  | false =>
    refine .inr ⟨rfl, ?_⟩
    cases p.visible with
    | true => exact .inl (by simp)
    | false =>
      by_cases hs : p.scanline = -1
      · exact .inl (by simp [hs])
      · exact .inr (by simp [hs])

@[simp] theorem Ppu.action_scanline : (p.action v).scanline = p.scanline := by
  rcases p.action_cases v with ⟨-, e⟩ | ⟨-, e | e⟩ <;> rw [e] <;> simp

@[simp] theorem Ppu.action_cycle : (p.action v).cycle = p.cycle := by
  rcases p.action_cases v with ⟨-, e⟩ | ⟨-, e | e⟩ <;> rw [e] <;> simp

/-- A step adds the pixel of its position if it is a pixel cycle's, and no pixel otherwise. -/
theorem Ppu.step_pixels :
    (p.step v).pixels = p.pixels ++ (if p.onPixel then [p.pixel v] else []) := by
  have hadv : ∀ q : Ppu, q.advance.pixels = q.pixels := by
    intro q
    unfold Ppu.advance
    split <;> rfl
  unfold Ppu.step
  rw [hadv]
  rcases p.action_cases v with ⟨h, e⟩ | ⟨h, e | e⟩ <;> rw [e, h] <;> simp

/-! ### The timing advance -/

theorem Ppu.advance_wrap (h : p.cycle = 340) :
    p.advance = { p with cycle := 0, scanline := if p.scanline = 260 then -1 else p.scanline + 1 } := by
  unfold Ppu.advance
  rw [if_pos (by omega)]
  congr 1
  by_cases h2 : p.scanline = 260
  · rw [if_pos h2, if_pos (by omega)]
  · rw [if_neg h2, if_neg (by omega)]

theorem Ppu.advance_inside (h : p.cycle ≠ 340) : p.advance = { p with cycle := p.cycle + 1 } := by
  unfold Ppu.advance
  rw [if_neg (by omega)]

/-- The position after one step. -/
theorem Ppu.step_position :
    (p.step v).scanline =
      (if p.cycle = 340 then (if p.scanline = 260 then -1 else p.scanline + 1) else p.scanline) ∧
    (p.step v).cycle = (if p.cycle = 340 then 0 else p.cycle + 1) := by
  unfold Ppu.step
  by_cases h : p.cycle = 340
  · rw [Ppu.advance_wrap _ (by simpa using h)]
    simp [h]
  · rw [Ppu.advance_inside _ (by simpa using h)]
    simp [h]

/-! ### What each kind of cycle does -/

/-- The idle cycles of any scanline (48_ppu_renderer.md R213, R214, R230). -/
theorem Ppu.action_idle (h1 : p.cycle ≠ 328) (h2 : p.cycle ≠ 336)
    (h : p.cycle = 0 ∨ 257 ≤ p.cycle ∨ p.scanline < 0 ∨ 240 ≤ p.scanline) : p.action v = p := by
  unfold Ppu.action Ppu.visibleAction Ppu.onPixel Ppu.visible Ppu.prefetch
  simp only [Bool.and_eq_true, decide_eq_true_eq]
  repeat' split
  all_goals first | rfl | omega

/-- An idle cycle inside a scanline moves the position on by one. -/
theorem Ppu.step_idle (h1 : p.cycle ≠ 328) (h2 : p.cycle ≠ 336)
    (h : p.cycle = 0 ∨ 257 ≤ p.cycle ∨ p.scanline < 0 ∨ 240 ≤ p.scanline) (hc : p.cycle ≠ 340) :
    p.step v = { p with cycle := p.cycle + 1 } := by
  unfold Ppu.step
  rw [Ppu.action_idle v p h1 h2 h, Ppu.advance_inside _ hc]

/-- The last cycle of a scanline but the last moves to the next one. -/
theorem Ppu.step_wrap (hc : p.cycle = 340) (hs : p.scanline ≠ 260) :
    p.step v = { p with cycle := 0, scanline := p.scanline + 1 } := by
  unfold Ppu.step
  rw [Ppu.action_idle v p (by omega) (by omega) (by omega), Ppu.advance_wrap _ hc, if_neg hs]

/-- A cycle from 328 on of scanlines -1 to 239 does its prefetch (48_ppu_renderer.md R229). -/
theorem Ppu.step_prefetch (hs : -1 ≤ p.scanline ∧ p.scanline ≤ 239) (h : 328 ≤ p.cycle) (hc : p.cycle ≠ 340) :
    p.step v = { p.prefetch v with cycle := p.cycle + 1 } := by
  have ha : p.action v = p.prefetch v := by
    unfold Ppu.action Ppu.visibleAction Ppu.onPixel Ppu.visible
    simp only [Bool.and_eq_true, decide_eq_true_eq]
    repeat' split
    all_goals first | rfl | omega
  unfold Ppu.step
  rw [ha, Ppu.advance_inside _ (by simpa using hc)]
  simp

/-- Cycles 1 to 256 of a visible scanline are pixel cycles (48_ppu_renderer.md R220). -/
theorem Ppu.step_pixel {y : Nat} (h : p.scanline = y) (hy : y ≤ 239) (h1 : 1 ≤ p.cycle) (h2 : p.cycle ≤ 256) :
    p.step v = { p.pixelCycle v with cycle := p.cycle + 1 } := by
  have hv : p.visible = true := by
    unfold Ppu.visible
    simp
    omega
  have ho : p.onPixel = true := by
    unfold Ppu.onPixel
    simp [hv]
    omega
  have ha : p.action v = p.pixelCycle v := by
    unfold Ppu.action Ppu.visibleAction
    simp [hv, ho]
  unfold Ppu.step
  rw [ha, Ppu.advance_inside _ (by simp; omega)]
  simp

/-! ### The invariant's part -/

/-- A step keeps a position legal (10_state.md R36). -/
theorem Ppu.step_legal (h : p.Legal) : (p.step v).Legal := by
  obtain ⟨⟨h1, h2⟩, h3⟩ := h
  obtain ⟨hs, hc⟩ := p.step_position v
  unfold Ppu.Legal
  rw [hs, hc]
  split
  · split <;> omega
  · omega

/-- A step keeps the PPU's part of the invariant. -/
theorem Ppu.step_inv (h : p.Inv) : (p.step v).Inv := by
  refine ⟨p.step_legal v h.legal, ?_⟩
  rw [Ppu.step_pixels]
  intro e he
  rcases List.mem_append.mp he with he | he
  · exact h.pixels e he
  · cases hp : p.onPixel with
    | false => simp [hp] at he
    | true =>
      simp only [hp, if_true, List.mem_singleton] at he
      subst he
      unfold Ppu.onPixel Ppu.visible at hp
      simp only [Bool.and_eq_true, decide_eq_true_eq] at hp
      unfold Ppu.pixel
      simp only
      omega

/-- A run keeps the PPU's part of the invariant. -/
theorem Ppu.run_inv (n : Nat) (h : p.Inv) : (Ppu.run v n p).Inv := by
  induction n generalizing p with
  | zero => exact h
  | succ n ih => exact ih _ (p.step_inv v h)

end Sys2Proof.Machine
end

