-- ==== Sys2Proof/Laws/Step.lean ====
section
/-! SUPPORT. Everything a fetch and a step can do: the inversion lemmas from which the invariants are derived. -/

namespace Sys2Proof.Machine

variable (s : State)

/-- A fetch refuses exactly the ports (20_memory.md R59). -/
theorem fetch_port {a : Word} (h : isPort a = true) : s.fetch a = .error (.portFetch a) := by
  rw [State.fetch, if_pos h]

theorem fetch_plain {a : Word} (h : isPort a = false) : s.fetch a = .ok (s.load a) := by
  rw [State.fetch, if_neg (by simp [h])]

/-- Every row of the table has a (mode, index) pair the resolver accepts: UnsupportedAddressingMode is unreachable
(40_pipeline_addressing.md R114). -/
theorem resolverAccepts_of_row {row : Row} (h : row ∈ decodeTable) :
    resolverAccepts row.decoded.mode row.decoded.index = true := by
  simp only [decodeTable, List.mem_cons, List.not_mem_nil, or_false] at h
  rcases h with rfl | rfl | rfl | rfl | rfl | rfl | rfl | rfl | rfl | rfl | rfl | rfl | rfl <;> rfl

/-- Every way fetching an instruction can fault, in the order of 60_exceptions.md R266. -/
theorem fetchInstr_error {s : State} {c : Cause} (h : fetchInstr s = .error c) :
    (isPort s.pc = true ∧ c = .portFetch s.pc) ∨
    (isPort s.pc = false ∧ lookup (s.load s.pc) = none ∧ c = .unknownOpcode (s.load s.pc) s.pc) ∨
    (isPort (s.pc + 1#16) = true ∧ c = .portFetch (s.pc + 1#16)) ∨
    (isPort (s.pc + 2#16) = true ∧ c = .portFetch (s.pc + 2#16)) := by
  unfold fetchInstr at h
  cases h0 : isPort s.pc with
  | true =>
    rw [fetch_port s h0] at h
    cases h
    exact .inl ⟨rfl, rfl⟩
  | false =>
    rw [fetch_plain s h0] at h
    simp only at h
    cases hl : lookup (s.load s.pc) with
    | none =>
      rw [hl] at h
      cases h
      exact .inr (.inl ⟨rfl, rfl, rfl⟩)
    | some row =>
      rw [hl] at h
      simp only [resolverAccepts_of_row (lookup_some hl).1, if_true] at h
      refine .inr (.inr ?_)
      cases hb : row.build with
      | plain i =>
        rw [hb] at h
        cases h
      | ofByte f =>
        rw [hb] at h
        cases h1 : isPort (s.pc + 1#16) with
        | true =>
          simp only [fetch_port s h1] at h
          cases h
          exact .inl ⟨rfl, rfl⟩
        | false =>
          simp only [fetch_plain s h1] at h
          cases h
      | ofWord f =>
        rw [hb] at h
        cases h1 : isPort (s.pc + 1#16) with
        | true =>
          simp only [fetch_port s h1] at h
          cases h
          exact .inl ⟨rfl, rfl⟩
        | false =>
          simp only [fetch_plain s h1] at h
          cases h2 : isPort (s.pc + 2#16) with
          | true =>
            simp only [fetch_port s h2] at h
            cases h
            exact .inr ⟨rfl, rfl⟩
          | false =>
            simp only [fetch_plain s h2] at h
            cases h

/-- Fetching reads what the decoder reads from the bytes at PC, where none of them is at a port. -/
theorem fetchInstr_of_decode {s : State} {i : Instr} {rest : List Byte} (h : decode s.codeBytes = .ok (i, rest))
    (hf : s.fetchable i.length = true) : fetchInstr s = .ok i := by
  obtain ⟨op, tail, row, hb, hl, h⟩ := decode_ok_cases h
  unfold State.codeBytes at hb
  obtain ⟨rfl, rfl⟩ := List.cons.inj hb
  obtain ⟨hm, ho⟩ := lookup_some hl
  obtain ⟨b1, b2, b3⟩ := row_build hm
  have hk : ∀ k, k < i.length → isPort (s.pc + BitVec.ofNat 16 k) = false := by
    intro k hk
    have := List.all_eq_true.mp hf k (List.mem_range.mpr hk)
    simpa using this
  unfold fetchInstr
  rcases h with ⟨hb, e⟩ | ⟨f, b, hb, e, rfl⟩ | ⟨f, lo, hi, hb, e, rfl⟩
  · have h0 := hk 0 (by unfold Instr.length; rw [b1 i hb]; simp)
    rw [BitVec.add_zero] at h0
    simp [fetch_plain s h0, hl, resolverAccepts_of_row hm, hb]
  · have h0 := hk 0 (by unfold Instr.length; rw [b2 f hb]; simp)
    have h1 := hk 1 (by unfold Instr.length; rw [b2 f hb]; simp)
    rw [BitVec.add_zero] at h0
    obtain ⟨rfl, e⟩ := List.cons.inj e
    simp [fetch_plain s h0, hl, resolverAccepts_of_row hm, hb, fetch_plain s h1]
  · have h0 := hk 0 (by unfold Instr.length; rw [b3 f hb]; simp)
    have h1 := hk 1 (by unfold Instr.length; rw [b3 f hb]; simp)
    have h2 := hk 2 (by unfold Instr.length; rw [b3 f hb]; simp)
    rw [BitVec.add_zero] at h0
    obtain ⟨rfl, e2⟩ := List.cons.inj e
    obtain ⟨rfl, e3⟩ := List.cons.inj e2
    simp [fetch_plain s h0, hl, resolverAccepts_of_row hm, hb, fetch_plain s h1, fetch_plain s h2]

/-- A step in a halted state is the fault of a halted machine. -/
theorem systemIteration_halted (cycles : CycleTable) {r : FaultRecord} (h : s.halted = some r) :
    systemIteration cycles s = .fault (.halted r) := by
  rw [systemIteration, h]

/-- A step of a running machine whose fetch faults is the taking of that fault. -/
theorem systemIteration_error (cycles : CycleTable) {c : Cause} (hr : s.Running) (h : fetchInstr s = .error c) :
    systemIteration cycles s = .next (s.raise c) := by
  rw [systemIteration, hr, h]

/-- A step of a running machine that fetches an instruction runs it whole, and its PPU cycles. -/
theorem systemIteration_ok (cycles : CycleTable) {i : Instr} (hr : s.Running) (h : fetchInstr s = .ok i) :
    ∃ t, exec i s = .next t ∧ t.Running ∧
      systemIteration cycles s = .next (t.runPpu (ppuCyclesAfter cycles i s)) := by
  obtain ⟨t, ht, -, hh⟩ := exec_next s i
  have hrun : t.halted = none := hh.trans hr
  refine ⟨t, ht, hrun, ?_⟩
  rw [systemIteration, hr, h]
  change afterCpu _ (exec i s) = _
  rw [ht]
  simp [afterCpu, hrun]

/-- Everything a step that answers a next state can do. -/
theorem step_next {s t : State} (h : step s = .next t) : s.Running ∧
    ((∃ c, fetchInstr s = .error c ∧ t = s.raise c) ∨
     (∃ i u, fetchInstr s = .ok i ∧ exec i s = .next u ∧ u.Running ∧
       t = u.runPpu (ppuCyclesAfter Config.cpuCycles i s))) := by
  unfold step at h
  cases hh : s.halted with
  | some r =>
    rw [systemIteration_halted s _ hh] at h
    cases h
  | none =>
    refine ⟨hh, ?_⟩
    cases hf : fetchInstr s with
    | error c =>
      rw [systemIteration_error s _ hh hf] at h
      cases h
      exact .inl ⟨c, rfl, rfl⟩
    | ok i =>
      obtain ⟨u, hu, hur, e⟩ := systemIteration_ok s Config.cpuCycles hh hf
      rw [e] at h
      cases h
      exact .inr ⟨i, u, rfl, hu, hur, rfl⟩

end Sys2Proof.Machine
end

