-- ==== Sys2Proof/Tests/Slice0.lean ====
section
/-! SUPPORT. Tests: expected results are the vectors of spec/95_test_vectors.md (their ids stand beside the
theorems) and the words of spec/opcode_table.json, written out by hand; then, for each obligation with hypotheses,
a witness that meets them all together. -/

namespace Sys2Proof.Tests

open Sys2Proof Sys2Proof.Machine

/-! ### Helpers -/

/-- A running state with every register zero, PC at 0x8000 and these cells in AddressSpace. -/
def st (mem : Memory) : State := { State.reset with pc := 0x8000#16, mem := mem }

/-- The answer is a next state with this property. -/
def next (r : Result) (q : State → Bool) : Bool :=
  match r with
  | .next t => q t
  | _ => false

/-- The answer is a next state that has taken this cause, with this PC in the snapshot. -/
def faulted (r : Result) (c : Cause) (pc : Word) : Bool :=
  next r fun t => (t.halted.map fun h => (h.cause, h.snap.pc)) == some (c, pc) && t.pc == pc

def flagZ : Byte := 0x02#8
def flagN : Byte := 0x80#8

/-- A view of the PPU with these scroll bits, this `ctrl` and these cells in VRam. -/
def view (cur : Scroll) (ctrl : Byte) (vram : Memory) : PpuView := ⟨cur, ctrl, vram⟩

/-- A PPU at a position, its shifters and latch not zero. -/
def at_ (scanline : Int) (cycle : Nat) : Ppu := ⟨scanline, cycle, 0xAAAA#16, 0x5555#16, 0x77#8, []⟩

/-! ### WellFormed refuses ill-formed terms -/

theorem test_wf_accepts : (Form.mk ⟨.sta, .absolute, none⟩ [0x00#8, 0x20#8]).wellFormed = true := by decide
theorem test_wf_refuses_triple : (Form.mk ⟨.sta, .immediate, none⟩ [0x00#8]).wellFormed = false := by decide
theorem test_wf_refuses_index : (Form.mk ⟨.sta, .absolute, some .x⟩ [0x00#8, 0x20#8]).wellFormed = false := by decide
theorem test_wf_refuses_missing_index : (Form.mk ⟨.lda, .absolute, none⟩ [0x00#8, 0x20#8]).wellFormed = false := by
  decide
theorem test_wf_refuses_short_operand : (Form.mk ⟨.sta, .absolute, none⟩ [0x00#8]).wellFormed = false := by decide
theorem test_wf_refuses_long_operand : (Form.mk ⟨.inx, .implied, none⟩ [0x00#8]).wellFormed = false := by decide

/-! ### Decoding (95 section 2.1; the words of the opcode table, first byte lowest) -/

theorem test_decode_jsr : decodeTableWord 24 0b100100000000000000100000 = some (.jsr 0x9000#16) := by decide
theorem test_decode_and : decodeTableWord 16 0b1111000000100001 = some (.andIndX 0xF0#8) := by decide
theorem test_decode_jmp : decodeTableWord 24 0b100000000000011001001100 = some (.jmp 0x8006#16) := by decide
theorem test_decode_sei : decodeTableWord 8 0b01111000 = some .sei := by decide
theorem test_decode_dey : decodeTableWord 8 0b10001000 = some .dey := by decide
theorem test_decode_sta : decodeTableWord 24 0b001000000000011010001101 = some (.sta 0x2006#16) := by decide
theorem test_decode_txs : decodeTableWord 8 0b10011010 = some .txs := by decide
theorem test_decode_ldy : decodeTableWord 16 0b0000001110100000 = some (.ldyImm 0x03#8) := by decide
theorem test_decode_ldx : decodeTableWord 16 0b1111111110100010 = some (.ldxImm 0xFF#8) := by decide
theorem test_decode_lda : decodeTableWord 16 0b1000000010101001 = some (.ldaImm 0x80#8) := by decide
theorem test_decode_ldaAbsX : decodeTableWord 24 0b000100101111000010111101 = some (.ldaAbsX 0x12F0#16) := by decide
theorem test_decode_bne : decodeTableWord 16 0b1111110111010000 = some (.bne 0xFD#8) := by decide
theorem test_decode_inx : decodeTableWord 8 0b11101000 = some .inx := by decide

/-- The Unknown bytes of 95 section 2.1. -/
theorem test_decode_unknown : [0x00#8, 0x60#8, 0xEA#8, 0xAD#8, 0xFF#8, 0x22#8, 0xBC#8, 0xD8#8].map decodeOpcode =
    List.replicate 8 none := by decide
theorem test_decode_rejects_by_name : decode [0xEA#8, 0x00#8] = .error (.unknownOpcode 0xEA#8) := by decide
theorem test_decode_truncated : decode [0x20#8, 0x00#8] = .error (.truncated 0x20#8) := by decide

/-! ### Loads, stores, transfer (95 sections 2.2, 2.4) -/

/-- V-LS-1. -/
theorem test_lda_zero : next (exec (.ldaImm 0x00#8) { st [] with a := 0x55#8, p := flagN })
    (fun t => t.a == 0x00#8 && t.p == flagZ && t.pc == 0x8002#16) = true := by decide
/-- V-LS-2. -/
theorem test_lda_negative : next (exec (.ldaImm 0x80#8) { st [] with p := flagZ })
    (fun t => t.a == 0x80#8 && t.p == flagN) = true := by decide
/-- V-LS-3. -/
theorem test_ldx : next (exec (.ldxImm 0xFF#8) { st [] with p := flagZ })
    (fun t => t.x == 0xFF#8 && t.p == flagN && t.a == 0#8) = true := by decide
/-- V-LS-4. -/
theorem test_ldy : next (exec (.ldyImm 0x00#8) { st [] with y := 0x21#8 })
    (fun t => t.y == 0x00#8 && t.p == flagZ) = true := by decide
/-- V-AM-3: the index wraps modulo 2^16. -/
theorem test_ldaAbsX_wraps : next (exec (.ldaAbsX 0xFFF0#16) { st [(0x0010, 0x99#8)] with x := 0x20#8 })
    (fun t => t.a == 0x99#8 && t.p == flagN && t.pc == 0x8003#16) = true := by decide
/-- V-LS-6: the data port answers at once and moves `cur`. -/
theorem test_ldaAbsX_port :
    next (exec (.ldaAbsX 0x2000#16)
      { st [] with x := 0x07#8, cur := 0x2000#15, vram := [(0x2000, 0x42#8)] })
    (fun t => t.a == 0x42#8 && t.cur == 0x2001#15) = true := by decide
/-- V-LS-8: the byte and the name-table bits. -/
theorem test_sta_port : next (exec (.sta 0x2000#16) { st [] with a := 0x03#8 })
    (fun t => t.tmp == 0x0C00#15 && t.cur == 0#15 && t.mem == [(0x2000, 0x03#8)]) = true := by decide
/-- V-LS-10: no write protection, and the other bank copy stays. -/
theorem test_sta_prg : next (exec (.sta 0x8000#16) { st [] with a := 0x5A#8, p := flagZ })
    (fun t => t.mem == [(0x8000, 0x5A#8)] && t.p == flagZ && t.pc == 0x8003#16) = true := by decide
/-- V-LS-11. -/
theorem test_txs : next (exec .txs { st [] with x := 0xFF#8, sp := 0x12#8, p := flagN })
    (fun t => t.sp == 0xFF#8 && t.x == 0xFF#8 && t.p == flagN) = true := by decide

/-! ### Increment, decrement, AND (95 section 2.5) -/

/-- V-AR-1. -/
theorem test_inx_wraps : next (exec .inx { st [] with x := 0xFF#8, p := flagN })
    (fun t => t.x == 0x00#8 && t.p == flagZ) = true := by decide
/-- V-AR-2. -/
theorem test_inx_sign : next (exec .inx { st [] with x := 0x7F#8 })
    (fun t => t.x == 0x80#8 && t.p == flagN) = true := by decide
/-- V-AR-4. -/
theorem test_dey_wraps : next (exec .dey { st [] with y := 0x00#8, p := flagZ })
    (fun t => t.y == 0xFF#8 && t.p == flagN) = true := by decide
/-- V-AR-5. -/
theorem test_dey_sign : next (exec .dey { st [] with y := 0x80#8, p := flagN })
    (fun t => t.y == 0x7F#8 && t.p == 0#8) = true := by decide
/-- V-AM-9: the pointer's high byte wraps inside the zero page. -/
theorem test_and_zero_page_wraps :
    next (exec (.andIndX 0xFF#8)
      { st [(0x00, 0x12#8), (0xFF, 0x34#8), (0x0100, 0x77#8), (0x1234, 0x0F#8)] with a := 0xFF#8 })
    (fun t => t.a == 0x0F#8 && t.pc == 0x8002#16) = true := by decide
/-- V-AR-7: through the data port, with increment 32. -/
theorem test_and_port :
    next (exec (.andIndX 0x20#8)
      { st [(0x20, 0x07#8), (0x21, 0x20#8), (0x2000, 0x04#8)] with
        a := 0xFF#8, cur := 0x2400#15, vram := [(0x2400, 0x81#8)] })
    (fun t => t.a == 0x81#8 && t.cur == 0x2420#15 && t.p == flagN) = true := by decide

/-! ### Flags and control transfer (95 sections 2.3, 2.6) -/

/-- V-FL-1. -/
theorem test_sei : next (exec .sei { st [] with p := flagZ })
    (fun t => t.p == 0x06#8 && t.pc == 0x8001#16) = true := by decide
/-- V-FL-2. -/
theorem test_sei_again : next (exec .sei { st [] with p := 0x04#8 }) (fun t => t.p == 0x04#8) = true := by decide
/-- V-AM-5: taken, the target wraps modulo 2^16. -/
theorem test_bne_taken : next (exec (.bne 0x80#8) { st [] with pc := 0x0002#16 })
    (fun t => t.pc == 0xFF84#16) = true := by decide
/-- V-AM-7: not taken. -/
theorem test_bne_not_taken : next (exec (.bne 0x7F#8) { st [] with pc := 0xFFF0#16, p := flagZ })
    (fun t => t.pc == 0xFFF2#16) = true := by decide
/-- V-CT-5. -/
theorem test_jmp : next (exec (.jmp 0x8006#16) (st [])) (fun t => t.pc == 0x8006#16) = true := by decide
/-- V-CT-7. -/
theorem test_jsr : next (exec (.jsr 0x9000#16) { st [] with pc := 0x80FD#16, sp := 0xFF#8 })
    (fun t => t.mem == [(0x01FE, 0xFF#8), (0x01FF, 0x80#8)] && t.sp == 0xFD#8 && t.pc == 0x9000#16) = true := by
  decide
/-- V-CT-8: the stack wraps inside its page. -/
theorem test_jsr_wraps : next (exec (.jsr 0x1234#16) { st [] with sp := 0x00#8 })
    (fun t => t.mem == [(0x0100, 0x80#8), (0x01FF, 0x02#8)] && t.sp == 0xFE#8) = true := by decide

/-! ### The port bus (95 section 2.7) -/

/-- V-PB-2. -/
theorem test_scroll_pair :
    let t := ((st []).memWrite 0x2005#16 0x7D#8).memWrite 0x2005#16 0x5E#8
    t.fineX = 5#3 ∧ t.tmp = 0x616F#15 ∧ t.toggle = false ∧ t.cur = 0#15 := by decide
/-- V-PB-5. -/
theorem test_address_pair :
    let t := ((st []).memWrite 0x2006#16 0xFF#8).memWrite 0x2006#16 0x12#8
    t.cur = 0x3F12#15 ∧ t.tmp = 0x3F12#15 ∧ t.toggle = false := by decide
/-- V-PB-4. -/
theorem test_address_first :
    (({ st [] with tmp := 0x7FFF#15 } : State).memWrite 0x2006#16 0xFF#8).tmp = 0x3FFF#15 := by decide
/-- V-PB-6. -/
theorem test_shared_toggle :
    (((st []).memWrite 0x2005#16 0x08#8).memWrite 0x2006#16 0x55#8).cur = 0x0055#15 := by decide
/-- V-PB-9. -/
theorem test_data_port_wraps :
    let t := ({ st [] with cur := 0x7FFF#15 } : State).memWrite 0x2007#16 0x01#8
    t.vram = [(0x3FFF, 0x01#8)] ∧ t.cur = 0#15 := by decide
/-- V-ST-2. -/
theorem test_pull : ({ st [(0x0100, 0xCD#8)] with sp := 0xFF#8 } : State).pull.1 = 0xCD#8 := by decide

/-! ### Faults and the step (95 sections 2.2, 2.8, 2.9) -/

/-- V-AM-10: the operand bytes wrap from 0xFFFF to 0x0000. -/
theorem test_step_wraps :
    next (step { st [(0x0000, 0x90#8), (0xFFFE, 0x4C#8)] with pc := 0xFFFE#16 })
    (fun t => t.pc == 0x9000#16 && t.halted.isNone) = true := by decide
/-- V-FA-1. -/
theorem test_unknown_opcode :
    faulted (step (st [(0x8000, 0xEA#8)])) (.unknownOpcode 0xEA#8 0x8000#16) 0x8000#16 = true := by decide
/-- V-FA-2. -/
theorem test_port_fetch :
    faulted (step { st [] with pc := 0x2007#16 }) (.portFetch 0x2007#16) 0x2007#16 = true := by decide
/-- V-FA-3. -/
theorem test_port_fetch_operand :
    faulted (step { st [(0x2001, 0xA9#8)] with pc := 0x2001#16, toggle := true }) (.portFetch 0x2002#16)
      0x2001#16 = true := by decide
/-- V-FA-4. -/
theorem test_unknown_before_port :
    faulted (step { st [] with pc := 0x2004#16 }) (.unknownOpcode 0x00#8 0x2004#16) 0x2004#16 = true := by decide
/-- V-PT-6, with the informative cycle counts: six PPU cycles follow an immediate load. -/
theorem test_iteration : next (systemIteration Config.nmosCycles (st [(0x8000, 0xA9#8)]))
    (fun t => t.ppu.scanline == -1 && t.ppu.cycle == 6 && t.a == 0#8) = true := by decide
/-- A table word is what the very next step runs, after reset and at a port. -/
theorem test_withFetchWord : next (step (State.reset.withFetchWord 24 0x90004C)) (fun t => t.pc == 0x9000#16) = true := by
  decide
theorem test_withFetchWord_port :
    next (step (({ st [] with pc := 0x2006#16 } : State).withFetchWord 8 0x9A)) (fun t => t.pc == 0x8001#16) = true := by
  decide

/-! ### The PPU (95 sections 2.9, 2.10) -/

/-- V-PT-2, V-PT-3, V-PT-4. -/
theorem test_ppu_positions :
    [at_ 260 340, at_ (-1) 340, at_ 239 340].map (fun p => ((p.step (view 0 0 [])).scanline,
      (p.step (view 0 0 [])).cycle)) = [(-1, 0), (0, 0), (240, 0)] := by decide

/-- The memory of V-PX-1. -/
def px1 : Memory :=
  [(0x0010, 0x80#8), (0x0020, 0x0F#8), (0x0028, 0xF0#8), (0x2000, 0x01#8), (0x2001, 0x02#8), (0x23C0, 0x01#8),
    (0x3F04, 0x0F#8), (0x3F05, 0x16#8), (0x3F06, 0x30#8)]

/-- V-PX-1: the prefetch of slot 0. -/
theorem test_prefetch_first :
    let p := (at_ (-1) 328).step (view 0 0 px1)
    p.patLo = 0x8055#16 ∧ p.patHi = 0x00AA#16 ∧ p.attrLatch = 0x01#8 := by decide
/-- V-PX-1: the prefetch of slot 1. -/
theorem test_prefetch_second :
    let p := (at_ (-1) 336).step (view 0 0 px1)
    p.patLo = 0x550F#16 ∧ p.patHi = 0xAAF0#16 ∧ p.attrLatch = 0x77#8 := by decide
/-- V-PX-1: the colour number of the first pixel, and of pixel 8 read from the tile. -/
theorem test_pixel :
    ((view 0 0 px1).pixelAt 0 0).rgba = Config.nesColor 0x16 ∧
      ((view 0 0 px1).pixelAt 8 0).rgba = Config.nesColor 0x30 := by
  constructor <;> rfl
/-- V-PX-4. -/
theorem test_world_wraps :
    (view 0x001F 0 []).world 1 0 = ⟨1, 0, 0, 0⟩ ∧ (view 0x0BA0 0 []).world 0 0 = ⟨2, 0, 29, 0⟩ ∧
      (view 0x0BA0 0 []).world 0 10 = ⟨0, 0, 0, 2⟩ := by decide
/-- V-PX-5. -/
theorem test_palette_number :
    [(0, 0), (16, 0), (0, 16), (16, 16), (32, 0), (31, 47), (31, 63)].map
      (fun q => paletteNumber 0xE4#8 q.1 q.2) = [0, 1, 2, 3, 0, 1, 3] := by decide
/-- V-PX-6. -/
theorem test_fetch_addresses :
    (World.mk 3 31 29 0).ntAddr = 0x2FBF ∧ (World.mk 3 31 29 0).atAddr = 0x2FFF ∧
      (view 0 0x10#8 [(0x2000, 0x02#8)]).patternAddr 0 5 = 0x1025 := by decide

/-! ### Loading (95 section 2.11) -/

/-- V-RS-1, V-RS-2: the reset vector's low byte stands first. -/
theorem test_reset_vector :
    resetVector (Memory.place [] 0xFFFC [0x10#8, 0xC0#8, 0x00#8, 0x00#8]) = 0xC010#16 := by decide
/-- Placed bytes replace what stood there, and nothing else. -/
theorem test_place :
    Memory.place [(1, 0x11#8), (2, 0x22#8), (4, 0x44#8)] 2 [0x00#8, 0x33#8] = [(1, 0x11#8), (3, 0x33#8), (4, 0x44#8)] := by
  decide

/-- A PRG or CHR buffer of one value; never evaluated. -/
def buffer (n : Nat) : List Byte := List.replicate n 0xE8#8

theorem buffer_length (n : Nat) : (buffer n).length = n := List.length_replicate

/-- A load of whole banks and a small CHR succeeds. -/
theorem load_ok (init : InitValues) {n m : Nat} (h : ¬ (n = 0 ∨ n % bankSize ≠ 0)) (hc : m ≤ chrLimit) :
    ∃ s, initializeCore init (buffer n) (buffer m) = .ok s := by
  unfold initializeCore
  rw [buffer_length, buffer_length, if_neg h, if_neg (Nat.not_lt.mpr hc)]
  exact ⟨_, rfl⟩

/-- V-RS-4. -/
theorem test_load_prgSize : initializeCore InitValues.zero (buffer 20000) (buffer 0) = .error .prgSize := by
  unfold initializeCore
  rw [buffer_length, if_pos (by decide)]
/-- V-RS-5. -/
theorem test_load_chrSize : initializeCore InitValues.zero (buffer 16384) (buffer 8193) = .error .chrSize := by
  unfold initializeCore
  rw [buffer_length, buffer_length, if_neg (by decide), if_pos (by decide)]

/-! ### Witnesses: states and operands that meet the hypotheses of each obligation that has some -/

/-- DecodedBytesAreTheEncoding. -/
theorem witness_decoded : decode [0x20#8, 0x00#8, 0x90#8, 0xEA#8] = .ok (.jsr 0x9000#16, [0xEA#8]) := by decide
/-- OpcodeByteFixesModeAndLength: one opcode byte, two instructions. -/
theorem witness_one_opcode : Instr.opcode (.sta 0x0000#16) = Instr.opcode (.sta 0xFFFF#16) := by decide
/-- DecodeTableIsExactlyTheThirteenRows: a byte that is no row's. -/
theorem witness_no_row : (0xEA#8 : Byte) ∉ decodeTable.map Row.opcode := by decide

/-- StepRunsTheDecodedInstruction, at the last place below a port. -/
theorem witness_step_decoded :
    let s : State := { st [(0x1FFD, 0x8D#8), (0x1FFE, 0x06#8), (0x1FFF, 0x20#8)] with pc := 0x1FFD#16 }
    s.Running ∧ decode s.codeBytes = .ok (.sta 0x2006#16, []) ∧ s.fetchable (Instr.length (.sta 0x2006#16)) = true := by
  decide
/-- StepRunsTheDecodedInstruction, a one-byte instruction right below the port 0x2000. -/
theorem witness_step_decoded_short :
    let s : State := { st [(0x1FFF, 0xE8#8)] with pc := 0x1FFF#16 }
    s.Running ∧ decode s.codeBytes = .ok (.inx, [0x00#8, 0x00#8]) ∧ s.fetchable (Instr.length .inx) = true := by decide

/-- CycleArgumentsOfEveryInstruction: both arguments true, and each false. -/
theorem witness_cycles :
    taken (.bne 0x80#8) (st []) = true ∧ crossed (.bne 0x80#8) (st []) = true ∧
      taken (.bne 0x7F#8) { st [] with p := flagZ } = false ∧ crossed (.bne 0x7F#8) (st []) = false ∧
      crossed (.ldaAbsX 0x12F0#16) { st [] with x := 0x20#8 } = true ∧
      crossed (.ldaAbsX 0x12F0#16) { st [] with x := 0x0F#8 } = false := by decide

/-- UnknownOpcodeHalts. -/
theorem witness_unknown :
    let s := st [(0x8000, 0xEA#8)]
    s.Running ∧ isPort s.pc = false ∧ decodeOpcode (s.load s.pc) = none := by decide
/-- PortFetchHalts: the opcode byte. -/
theorem witness_port_opcode :
    let s : State := { st [] with pc := 0x2007#16 }
    s.Running ∧ isPort s.pc = true := by decide
/-- PortFetchHalts: the first of one operand bytes, and of two. -/
theorem witness_port_first :
    let s : State := { st [(0x1FFF, 0xA9#8)] with pc := 0x1FFF#16 }
    let u : State := { st [(0x2001, 0x4C#8)] with pc := 0x2001#16 }
    (s.Running ∧ isPort s.pc = false ∧ decodeOpcode (s.load s.pc) = some ⟨.lda, .immediate, none⟩ ∧
      1 ≤ Mode.operandBytes .immediate ∧ isPort (s.pc + 1#16) = true) ∧
    (u.Running ∧ isPort u.pc = false ∧ decodeOpcode (u.load u.pc) = some ⟨.jmp, .absolute, none⟩ ∧
      1 ≤ Mode.operandBytes .absolute ∧ isPort (u.pc + 1#16) = true) := by decide
/-- PortFetchHalts: the second operand byte. -/
theorem witness_port_second :
    let s : State := { st [(0x1FFE, 0x4C#8)] with pc := 0x1FFE#16 }
    s.Running ∧ isPort s.pc = false ∧ decodeOpcode (s.load s.pc) = some ⟨.jmp, .absolute, none⟩ ∧
      2 ≤ Mode.operandBytes .absolute ∧ isPort (s.pc + 1#16) = false ∧ isPort (s.pc + 2#16) = true := by decide

/-- The record that the states below hold. -/
def record : FaultRecord := ⟨.unknownOpcode 0xEA#8 0x8000#16, ⟨0, 0, 0, 0x8000#16, 0, 0⟩⟩

/-- HaltedMachineHasNoStep; PpuIsInvisibleToTheCpu and FineXHasNoEffect, their clause about a stop. -/
theorem witness_halted :
    let s : State := { st [(0x8000, 0xEA#8)] with halted := some record }
    s.halted = some record ∧ step s = .fault (.halted record) := ⟨rfl, rfl⟩

/-- FaultsArePreciseAndRecordTheRegisters, OnlyTwoFaultCausesAreReachable, StepsWithoutAFaultComplete (its second
side): a step that takes UnknownOpcode. -/
theorem witness_fault_unknown :
    let s := st [(0x8000, 0xEA#8)]
    s.Running ∧ fetchInstr s = .error (.unknownOpcode 0xEA#8 0x8000#16) ∧
      step s = .next { s with halted := some record } := ⟨rfl, rfl, rfl⟩
/-- The same with PortFetch of the third byte. -/
theorem witness_fault_port :
    let s : State := { st [(0x1FFE, 0x4C#8)] with pc := 0x1FFE#16 }
    s.Running ∧ step s = .next { s with halted := some ⟨.portFetch 0x2000#16, s.registers⟩ } :=
  ⟨rfl, rfl⟩
/-- StepsWithoutAFaultComplete (its first side), UnusedFlagsAreNeitherWrittenNorRead (a step), PpuIsInvisibleToTheCpu,
FineXHasNoEffect: a step that answers a next state. -/
theorem witness_step_next :
    let s : State := { st [(0x8000, 0x78#8)] with p := 0x79#8 }
    s.Running ∧ fetchInstr s = .ok .sei ∧ ∃ t, step s = .next t ∧ t.Running ∧ t.p = 0x7D#8 :=
  ⟨rfl, rfl, _, rfl, rfl, rfl⟩

/-- A state of the invariant with something in both memories and a pixel at the last place of the screen. -/
def full : State :=
  { st [(0x0000, 0x01#8), (0x8000, 0xE8#8), (0xFFFF, 0x02#8)] with
    vram := [(0x0000, 0x03#8), (0x3FFF, 0x04#8)]
    ppu := { at_ 260 340 with pixels := [⟨255, 239, default⟩] } }

/-- EveryStepKeepsTheInvariant: a running state, and a step that answers. -/
theorem witness_inv : full.Inv ∧ ∃ t, step full = .next t := by
  refine ⟨⟨by decide, by decide, ⟨by decide, ?_⟩, nofun⟩, _, rfl⟩
  intro e he
  rw [List.mem_singleton.mp he]
  decide

/-- LoadedCartridgeMeetsTheInvariant and the statements about a loaded cartridge: one bank, two banks, three banks, and
a CHR of the greatest size. -/
theorem witness_load :
    (InitValues.zero.mem.wf addressSpaceSize = true ∧ InitValues.zero.vram.wf vramSize = true) ∧
    (buffer 16384).length = 16384 ∧ (buffer 32768).length ≠ 16384 ∧
    (∃ s, initializeCore InitValues.zero (buffer 16384) (buffer 0) = .ok s) ∧
    (∃ s, initializeCore InitValues.zero (buffer 32768) (buffer 8192) = .ok s) ∧
    ∃ s, initializeCore InitValues.zero (buffer 49152) (buffer 1) = .ok s := by
  refine ⟨by decide, buffer_length _, ?_, load_ok _ (by decide) (by decide), load_ok _ (by decide) (by decide),
    load_ok _ (by decide) (by decide)⟩
  rw [buffer_length]
  decide
/-- LoadErrorsAreExactlyTheBadSizes: the sizes of each clause. -/
theorem witness_load_sizes :
    ((buffer 0).length = 0 ∨ (buffer 0).length % 16384 ≠ 0) ∧
    ((buffer 16383).length = 0 ∨ (buffer 16383).length % 16384 ≠ 0) ∧
    ¬ ((buffer 16384).length = 0 ∨ (buffer 16384).length % 16384 ≠ 0) ∧
    8192 < (buffer 8193).length ∧ (buffer 8192).length ≤ 8192 := by
  simp only [buffer_length]
  decide

/-- BneBranchesWhenZeroIsClear: both values of Z. -/
theorem witness_bne : (st []).p.getLsbD 1 = false ∧ ({ st [] with p := flagZ } : State).p.getLsbD 1 = true := by decide
/-- JsrPushesTheReturnAddress, PushWritesThenDecrements: an address that is neither stack byte, next to one. -/
theorem witness_jsr :
    let s := st []
    (0x0101#16 : Word) ≠ 0x0100#16 + s.sp.setWidth 16 ∧
      (0x0101#16 : Word) ≠ 0x0100#16 + (s.sp - 1#8).setWidth 16 := by decide

/-- RegisterWritesFollowTheAccessTable: TXS may write none of A, X, Y, PC, N, Z, I; SEI may not write SP. -/
theorem witness_access_table :
    (∃ t, exec .txs (st []) = .next t) ∧ (∃ t, exec .sei (st []) = .next t) ∧
    writesA .txs = false ∧ writesX .txs = false ∧ writesY .txs = false ∧ writesPc .txs = false ∧
    writesNZ .txs = false ∧ writesI .txs = false ∧ writesSp .sei = false := by
  exact ⟨⟨_, rfl⟩, ⟨_, rfl⟩, by decide⟩
/-- OnlyStoresChangeAddressSpace: the byte beside a store, and the bytes beside the two of JSR. -/
theorem witness_stores :
    (∃ t, exec (.sta 0x0300#16) (st []) = .next t) ∧ 0x0301#16 ∉ storesTo (.sta 0x0300#16) (st []) ∧
    (∃ t, exec (.jsr 0x9000#16) (st []) = .next t) ∧ 0x0101#16 ∉ storesTo (.jsr 0x9000#16) (st []) ∧
    0x01FE#16 ∉ storesTo (.jsr 0x9000#16) (st []) := by
  exact ⟨⟨_, rfl⟩, by decide, ⟨_, rfl⟩, by decide, by decide⟩
/-- OnlyPortAccessesReachThePpuSide: each clause's condition, the nearest case that meets it. -/
theorem witness_ppu_side :
    let s : State := { st [] with cur := 0x4123#15 }
    (∃ t, exec (.sta 0x2007#16) s = .next t) ∧ (0x0124#14 : VIndex) ≠ s.vindex ∧
    (¬ (Instr.sta 0x2006#16 = .sta 0x2006#16 ∧ s.toggle = true) ∧ Instr.sta 0x2006#16 ≠ .sta 0x2007#16 ∧
      readsValueAt (.sta 0x2006#16) s ≠ some 0x2007#16 ∧ ∃ t, exec (.sta 0x2006#16) s = .next t) ∧
    Instr.sta 0x2002#16 ≠ .sta 0x2000#16 ∧ Instr.sta 0x2002#16 ≠ .sta 0x2005#16 ∧
    Instr.sta 0x2002#16 ≠ .sta 0x2006#16 ∧ Instr.sta 0x2002#16 ≠ .sta 0x2007#16 ∧
    readsValueAt (.sta 0x2002#16) s ≠ some 0x2002#16 ∧ (∃ t, exec (.sta 0x2002#16) s = .next t) := by
  exact ⟨⟨_, rfl⟩, by decide, ⟨by decide, by decide, by decide, _, rfl⟩, by decide, by decide, by decide, by decide,
    by decide, ⟨_, rfl⟩⟩
/-- CurChangesOnlyBySecondAddressWriteOrDataPort: each of the three ways. -/
theorem witness_cur :
    (∃ t, exec (.sta 0x2006#16) { st [] with toggle := true, a := 0x12#8 } = .next t ∧ t.cur = 0x0012#15) ∧
    (∃ t, exec (.sta 0x2007#16) (st []) = .next t ∧ t.cur = 0x0001#15) ∧
    (∃ t, exec (.ldaAbsX 0x2007#16) (st []) = .next t ∧ t.cur = 0x0001#15) := by
  exact ⟨⟨_, rfl, rfl⟩, ⟨_, rfl, rfl⟩, ⟨_, rfl, rfl⟩⟩
/-- UnusedFlagsAreNeitherWrittenNorRead: a status byte that differs in every bit but Z, before an instruction that
writes no flag, one that writes I, and one that writes N and Z. -/
theorem witness_flags :
    (0xFD#8 : Byte).getLsbD 1 = (st []).p.getLsbD 1 ∧ (∃ t, exec (.bne 0x10#8) (st []) = .next t) ∧
      (∃ t, exec .sei (st []) = .next t) ∧ (∃ t, exec .inx (st []) = .next t) ∧
      (∀ k ∈ [0, 2, 3, 4, 5, 6, 7], (0xFD#8 : Byte).getLsbD k ≠ (st []).p.getLsbD k) := by
  exact ⟨by decide, ⟨_, rfl⟩, ⟨_, rfl⟩, ⟨_, rfl⟩, by decide⟩
/-- OnlyPortsHaveSideEffects: the plain addresses around the ports. -/
theorem witness_not_port :
    [0x1FFF#16, 0x2001#16, 0x2003#16, 0x2004#16, 0x2008#16, 0x3FFF#16].map isPort = List.replicate 6 false := by decide
/-- Port2005WritesTheScrollPair, Port2006WritesTheAddressPair, PairPortsShareOneToggle: both values of the toggle. -/
theorem witness_toggle : (st []).toggle = false ∧ ({ st [] with toggle := true } : State).toggle = true := by decide
/-- DataPortFillsConsecutiveVRam: as many bytes as VRam has. -/
theorem witness_fill : (buffer 0x4000).length ≤ 0x4000 ∧ (st []).ctrl.getLsbD 2 = false ∧ 0x3FFF < (buffer 0x4000).length := by
  rw [buffer_length]
  decide
/-- StoresIntoPrgAreReadAndFetched: both ends of the range, and another address. -/
theorem witness_prg :
    0x8000 ≤ (0x8000#16 : Word).toNat ∧ 0x8000 ≤ (0xFFFF#16 : Word).toNat ∧ (0xC000#16 : Word) ≠ 0x8000#16 := by decide

/-- PpuPositionCountsModuloOneFrame: both ends of a frame. -/
theorem witness_legal : (at_ (-1) 0).Legal ∧ (at_ 260 340).Legal := by decide
/-- The hypotheses of IdleCyclesOnlyAdvance. -/
def idle (p : Ppu) : Prop :=
  p.Legal ∧ (240 ≤ p.scanline ∨
    (p.cycle ≠ 328 ∧ p.cycle ≠ 336 ∧ (p.scanline = -1 ∨ p.cycle = 0 ∨ 257 ≤ p.cycle)))
/-- IdleCyclesOnlyAdvance: the boundary positions of every alternative. -/
theorem witness_idle :
    idle (at_ 240 1) ∧ idle (at_ 260 328) ∧ idle (at_ (-1) 1) ∧ idle (at_ 0 0) ∧ idle (at_ 239 257) ∧
      idle (at_ 239 327) ∧ idle (at_ 0 337) ∧ idle (at_ (-1) 340) := by
  unfold idle
  exact ⟨by decide, by decide, by decide, by decide, by decide, by decide, by decide, by decide⟩
/-- PixelCycleEmitsShiftsAndReloads: the first and the last pixel cycle, without and with a reload. -/
theorem witness_pixel_cycle :
    let p := at_ 0 1
    let q := at_ 239 256
    (p.scanline = (0 : Nat) ∧ 1 ≤ p.cycle ∧ p.cycle ≤ 256 ∧ p.cycle % 8 ≠ 0) ∧
    (q.scanline = (239 : Nat) ∧ 1 ≤ q.cycle ∧ q.cycle ≤ 256 ∧ q.cycle % 8 = 0) := by decide
/-- PrefetchLoadsTheNextRow: the first and the last row, both loads, and the ends of its idle cycles. -/
theorem witness_prefetch :
    let p := at_ (-1) 328
    let q := at_ 239 336
    (p.scanline + 1 = (0 : Nat) ∧ p.cycle = 328) ∧ (q.scanline + 1 = (240 : Nat) ∧ q.cycle = 336) ∧
      ∀ c ∈ [321, 327, 329, 335], (at_ 239 c).scanline + 1 = (240 : Nat) ∧ 321 ≤ c ∧ c ≤ 335 ∧ c ≠ 328 := by decide
/-- ShiftersHoldTheirSlots, ScanlineShowsThePicture: the first and the last line, the first and the last slot. -/
theorem witness_line :
    let p := at_ (-1) 321
    let q := at_ 238 321
    (p.scanline + 1 = (0 : Nat) ∧ p.cycle = 321 ∧ (0 : Nat) ≤ 31) ∧
    (q.scanline + 1 = (239 : Nat) ∧ q.cycle = 321 ∧ (31 : Nat) ≤ 31) := by decide
/-- FrameEmitsRasterOrder. -/
theorem witness_frame : (at_ (-1) 0).scanline = -1 ∧ (at_ (-1) 0).cycle = 0 := by decide

end Sys2Proof.Tests
end

/-! PROOF. The statements about memory and the port bus (20_memory.md). First what one access does, in the relations
of Safety.lean: a field write, a MemRead, a MemWrite; then one theorem per statement. -/

namespace Sys2Proof.Machine

section

variable (s : State)

/-! ### Field writes -/

/-- A field write sets the bits from `lo` to `hi` and keeps the others. -/
theorem fieldSet_setField (r : Scroll) {lo width hi : Nat} (h : hi + 1 = lo + width) (v : Byte) :
    FieldSet r (setField r lo width v) lo hi v := by
  intro k hk
  rw [setField_getLsbD]
  have hbits : (k < 15 ∧ lo ≤ k ∧ k < lo + width) ↔ (lo ≤ k ∧ k ≤ hi) := by omega
  simp only [hbits]

/-! ### MemRead -/

/-- `inc()` over the byte stored at 0x2000 (20_memory.md R67). -/
theorem State.increment_eq :
    s.increment = if (s.mem.read 0x2000).getLsbD 2 then 32#15 else 1#15 := rfl

/-- `cur` moved by `inc()`, as a number modulo 2^15 (20_memory.md R67). -/
theorem State.cur_add_increment_toNat :
    (s.cur + s.increment).toNat =
      (s.cur.toNat + if (s.mem.read 0x2000).getLsbD 2 then 32 else 1) % 0x8000 := by
  rw [BitVec.toNat_add, State.increment_eq]
  split <;> rfl

/-- The byte a MemRead returns, over the two memories (20_memory.md R60). -/
theorem State.readByte_eq (a : Word) :
    s.readByte a = if a = 0x2007#16 then s.vram.read (s.cur.toNat % 0x4000) else s.mem.read a.toNat := by
  rw [State.readByte, State.vload, vindex_toNat, State.load]

@[simp] theorem State.afterRead_registers (a : Word) : (s.afterRead a).registers = s.registers := by
  rw [State.afterRead_eq]
  rfl

/-- What a MemRead returns and changes outside the CPU registers (20_memory.md R60). -/
theorem memRead_readsByte (a : Word) : ReadsByte s a (s.memRead a).1 (s.memRead a).2 :=
  ⟨State.readByte_eq s a, State.afterRead_toggle s a, State.afterRead_cur s a, State.afterRead_tmp s a,
    State.afterRead_fineX s a, State.load_congr (State.afterRead_mem s a), State.vload_congr (State.afterRead_vram s a),
    State.afterRead_ppu s a, State.afterRead_halted s a⟩

/-- A MemRead away from the ports returns the stored byte and changes nothing (20_memory.md R62). -/
theorem State.memRead_of_not_isPort {a : Word} (h : isPort a = false) : s.memRead a = (s.load a, s) := by
  rw [State.memRead, State.readByte_of_not_isPort s h, State.afterRead_of_not_isPort s h]

/-! ### MemWrite -/

@[simp] theorem State.memWrite_registers (a : Word) (v : Byte) : (s.memWrite a v).registers = s.registers := by
  simp [State.registers]

/-- A MemWrite stores its byte, whatever its port effect, and changes nothing else of AddressSpace, of the CPU
registers, of the PPU's own state or of the fault record (20_memory.md R61). -/
theorem memWrite_writesByte (a : Word) (v : Byte) : WritesByte s a v (s.memWrite a v) := by
  refine ⟨?_, fun b hb => ?_, State.memWrite_registers s a v, State.memWrite_ppu s a v, State.memWrite_halted s a v⟩
  · rw [State.load_memWrite, if_pos rfl]
  · rw [State.load_memWrite, if_neg hb]

/-- Only a write to 0x2007 reaches VRam (20_memory.md R67). -/
theorem memWrite_sameVRam {a : Word} (h : a ≠ 0x2007#16) (v : Byte) : SameVRam s (s.memWrite a v) := by
  apply State.vload_congr
  rw [State.memWrite_vram, State.portWrite_vram, if_neg h]

/-- VRam after a write to 0x2007: the byte is at the old `cur & 0x3FFF` (20_memory.md R67). -/
theorem State.memWrite2007_vram (v : Byte) :
    (s.memWrite 0x2007#16 v).vram = s.vram.write (s.cur.toNat % 0x4000) v := by
  rw [State.memWrite_vram, State.portWrite_vram, if_pos rfl, vindex_toNat]

/-- `tmp` after the first 0x2005 write (20_memory.md R65). -/
theorem State.memWrite2005_tmp_first (v : Byte) (h : s.toggle = false) :
    (s.memWrite 0x2005#16 v).tmp = setField s.tmp 0 5 (v >>> 3) := by
  simp [State.portWrite_tmp, h]

/-- `tmp` after the second 0x2005 write (20_memory.md R65). -/
theorem State.memWrite2005_tmp_second (v : Byte) (h : s.toggle = true) :
    (s.memWrite 0x2005#16 v).tmp = setField (setField s.tmp 12 3 v) 5 5 (v >>> 3) := by
  simp [State.portWrite_tmp, h]

/-- `tmp` after the first 0x2006 write (20_memory.md R66). -/
theorem State.memWrite2006_tmp_first (v : Byte) (h : s.toggle = false) :
    (s.memWrite 0x2006#16 v).tmp = setField (setField s.tmp 8 6 v) 14 1 0#8 := by
  simp [State.portWrite_tmp, h]

/-- `tmp` after the second 0x2006 write (20_memory.md R66). -/
theorem State.memWrite2006_tmp_second (v : Byte) (h : s.toggle = true) :
    (s.memWrite 0x2006#16 v).tmp = setField s.tmp 0 8 v := by
  simp [State.portWrite_tmp, h]

/-- The second 0x2006 write copies the new `tmp` to `cur` (20_memory.md R66). -/
theorem State.memWrite2006_cur_second (v : Byte) (h : s.toggle = true) :
    (s.memWrite 0x2006#16 v).cur = (s.memWrite 0x2006#16 v).tmp := by
  rw [State.memWrite2006_tmp_second s v h]
  simp [State.portWrite_cur, h]

/-- A 0x2005 write flips the toggle (20_memory.md R65, R70). -/
@[simp] theorem State.memWrite2005_toggle (v : Byte) : (s.memWrite 0x2005#16 v).toggle = !s.toggle := by
  simp [State.portWrite_toggle]

/-- A 0x2006 write flips the same toggle (20_memory.md R66, R70). -/
@[simp] theorem State.memWrite2006_toggle (v : Byte) : (s.memWrite 0x2006#16 v).toggle = !s.toggle := by
  simp [State.portWrite_toggle]

/-- A 0x2005 write keeps `cur` (20_memory.md R65). -/
@[simp] theorem State.memWrite2005_cur (v : Byte) : (s.memWrite 0x2005#16 v).cur = s.cur := by
  simp [State.portWrite_cur]

/-- The first 0x2006 write keeps `cur` (20_memory.md R66). -/
theorem State.memWrite2006_cur_first (v : Byte) (h : s.toggle = false) : (s.memWrite 0x2006#16 v).cur = s.cur := by
  simp [State.portWrite_cur, h]

/-- The first 0x2005 write sets `fine_x` to the low three bits (20_memory.md R65). -/
theorem State.memWrite2005_fineX_first (v : Byte) (h : s.toggle = false) :
    (s.memWrite 0x2005#16 v).fineX = v.setWidth 3 := by
  simp [State.portWrite_fineX, h]

/-- The second 0x2005 write keeps `fine_x` (20_memory.md R65). -/
theorem State.memWrite2005_fineX_second (v : Byte) (h : s.toggle = true) :
    (s.memWrite 0x2005#16 v).fineX = s.fineX := by
  simp [State.portWrite_fineX, h]

/-- A 0x2006 write keeps `fine_x` (20_memory.md R66). -/
@[simp] theorem State.memWrite2006_fineX (v : Byte) : (s.memWrite 0x2006#16 v).fineX = s.fineX := by
  simp [State.portWrite_fineX]

/-- `tmp` after the first 0x2006 write, bit by bit: bit 14 is cleared (20_memory.md R66). -/
theorem State.memWrite2006_tmp_first_getLsbD (v : Byte) (h : s.toggle = false) {k : Nat} (hk : k < 15) :
    (s.memWrite 0x2006#16 v).tmp.getLsbD k =
      if k = 14 then false else if 8 ≤ k then v.getLsbD (k - 8) else s.tmp.getLsbD k := by
  rw [State.memWrite2006_tmp_first s v h, setField_getLsbD, setField_getLsbD]
  have h14 : (k < 15 ∧ 14 ≤ k ∧ k < 14 + 1) ↔ k = 14 := by omega
  by_cases hk14 : k = 14
  · simp [hk14]
  · have h8 : (k < 15 ∧ 8 ≤ k ∧ k < 8 + 6) ↔ 8 ≤ k := by omega
    simp only [h14, hk14, h8, if_false]

/-- `tmp` after the second 0x2005 write, bit by bit: bits 10 and 11 stay (20_memory.md R65). -/
theorem State.memWrite2005_tmp_second_getLsbD (v : Byte) (h : s.toggle = true) {k : Nat} (hk : k < 15) :
    (s.memWrite 0x2005#16 v).tmp.getLsbD k =
      if 12 ≤ k then v.getLsbD (k - 12) else if 5 ≤ k ∧ k ≤ 9 then (v >>> 3).getLsbD (k - 5)
      else s.tmp.getLsbD k := by
  rw [State.memWrite2005_tmp_second s v h, setField_getLsbD, setField_getLsbD]
  have h12 : (k < 15 ∧ 12 ≤ k ∧ k < 12 + 3) ↔ 12 ≤ k := by omega
  have h5 : (k < 15 ∧ 5 ≤ k ∧ k < 5 + 5) ↔ (5 ≤ k ∧ k ≤ 9) := by omega
  simp only [h12, h5]
  by_cases hk12 : 12 ≤ k
  · have hk9 : ¬ (5 ≤ k ∧ k ≤ 9) := by omega
    rw [if_neg hk9, if_pos hk12, if_pos hk12]
  · rw [if_neg hk12, if_neg hk12]

/-- No address from 0x8000 on is a port (20_memory.md R57, R62). -/
theorem isPort_of_prg {a : Word} (h : 0x8000 ≤ a.toNat) : isPort a = false := by
  rw [not_isPort_iff]
  refine ⟨?_, ?_, ?_, ?_, ?_⟩ <;>
  · rintro rfl
    revert h
    decide

end

/-! ### The statements -/

/-- Settles O40: each write to a pair port flips the one toggle, so the write to the other port meets it set. -/
theorem pairPortsShareOneToggle : Obligations.PairPortsShareOneToggle := by
  intro s v w h
  have h5 : (s.memWrite 0x2005#16 v).toggle = true := by rw [State.memWrite2005_toggle, h, Bool.not_false]
  have h6 : (s.memWrite 0x2006#16 v).toggle = true := by rw [State.memWrite2006_toggle, h, Bool.not_false]
  refine ⟨⟨?_, State.memWrite2006_cur_second _ w h5, ?_⟩, ⟨?_, ?_, ?_, fun k hk hk12 => ?_⟩⟩
  · rw [State.memWrite2006_toggle, h5, Bool.not_true]
  · rw [State.memWrite2006_tmp_second _ w h5]
    exact fieldSet_setField _ (by decide) w
  · rw [State.memWrite2005_toggle, h6, Bool.not_true]
  · rw [State.memWrite2005_cur, State.memWrite2006_cur_first s v h]
  · rw [State.memWrite2005_fineX_second _ w h6, State.memWrite2006_fineX]
  · rw [State.memWrite2005_tmp_second_getLsbD _ w h6 hk, if_pos hk12]

/-- Settles O42: an address from 0x8000 on is no port, so the write is a plain store. -/
theorem storesIntoPrgAreReadAndFetched : Obligations.StoresIntoPrgAreReadAndFetched := by
  intro s a v h
  have hp : isPort a = false := isPort_of_prg h
  obtain ⟨hv, hother, -⟩ := memWrite_writesByte s a v
  refine ⟨?_, ?_, hother⟩
  · rw [fetch_plain _ hp, hv]
  · rw [State.memRead_of_not_isPort _ hp, hv]

/-- Settles O33: the port list one by one, then the plain case of each access. -/
theorem onlyPortsHaveSideEffects : Obligations.OnlyPortsHaveSideEffects :=
  ⟨isPort_iff, fun s _ v h => ⟨State.memRead_of_not_isPort s h, State.memWrite_of_not_isPort s v h⟩⟩

/-- Settles O34 from what a MemRead returns and changes, and that it keeps the CPU registers. -/
theorem memReadFollowsThePortTable : Obligations.MemReadFollowsThePortTable := fun s a =>
  ⟨memRead_readsByte s a, State.afterRead_registers s a⟩

/-- Settles O35: 0x2002 is the port whose read touches only the toggle and whose write has no port effect. -/
theorem port2002ReadClearsTheToggle : Obligations.Port2002ReadClearsTheToggle := by
  intro s v
  constructor
  · simp [State.afterRead_eq]
  · rw [State.memWrite, State.portWrite_of_ne] <;> decide

/-- Settles O36: the port effect is one field write of `tmp`; VRam and the rest follow from the frame of a MemWrite. -/
theorem port2000WriteSetsTheNameTable : Obligations.Port2000WriteSetsTheNameTable := by
  intro s v
  have hctrl : (s.memWrite 0x2000#16 v).ctrl = v := by rw [State.ctrl, State.load_memWrite, if_pos rfl]
  refine ⟨?_, hctrl, ?_, ?_, ?_, memWrite_sameVRam s (by decide) v,
    memWrite_writesByte s _ v⟩
  · rw [State.memWrite_tmp, State.portWrite_tmp, if_pos rfl]
    exact fieldSet_setField s.tmp (by decide) v
  · simp [State.portWrite_cur]
  · simp [State.portWrite_fineX]
  · simp [State.portWrite_toggle]

/-- Settles O37, by the two values of the toggle. -/
theorem port2005WritesTheScrollPair : Obligations.Port2005WritesTheScrollPair := by
  intro s v
  refine ⟨fun h => ⟨?_, ?_⟩, fun h => ⟨State.memWrite2005_fineX_second s v h, fun k hk => ?_⟩,
    State.memWrite2005_toggle s v, State.memWrite2005_cur s v, memWrite_sameVRam s (by decide) v,
    memWrite_writesByte s _ v⟩
  · rw [State.memWrite2005_fineX_first s v h, BitVec.toNat_setWidth]
  · rw [State.memWrite2005_tmp_first s v h]
    exact fieldSet_setField s.tmp (by decide) (v >>> 3)
  · exact State.memWrite2005_tmp_second_getLsbD s v h hk

/-- Settles O38, by the two values of the toggle. -/
theorem port2006WritesTheAddressPair : Obligations.Port2006WritesTheAddressPair := by
  intro s v
  refine ⟨fun h => ⟨State.memWrite2006_cur_first s v h, fun k hk => ?_⟩,
    fun h => ⟨?_, State.memWrite2006_cur_second s v h⟩,
    State.memWrite2006_toggle s v, State.memWrite2006_fineX s v, memWrite_sameVRam s (by decide) v,
    memWrite_writesByte s _ v⟩
  · exact State.memWrite2006_tmp_first_getLsbD s v h hk
  · rw [State.memWrite2006_tmp_second s v h]
    exact fieldSet_setField s.tmp (by decide) v

/-- Settles O39: one VRam write at the index of the old `cur`, and one addition to `cur` for either access. -/
theorem port2007AccessesVRamAndMovesCur : Obligations.Port2007AccessesVRamAndMovesCur := by
  intro s v
  refine ⟨?_, fun a ha => ?_, ?_, ?_, ?_, ?_, memWrite_writesByte s _ v, ?_, ?_⟩
  · rw [State.memWrite2007_vram, Memory.read_write_same]
  · rw [State.vload, State.memWrite2007_vram, Memory.read_write_other _ v ha, State.vload]
  · simpa [State.portWrite_cur] using State.cur_add_increment_toNat s
  · simp [State.portWrite_tmp]
  · simp [State.portWrite_fineX]
  · simp [State.portWrite_toggle]
  · rw [State.memRead_fst, State.readByte_eq, if_pos rfl]
  · rw [State.memRead_snd, State.afterRead_cur, if_pos rfl]
    exact State.cur_add_increment_toNat s

end Sys2Proof.Machine

/-! PROOF. The statements about the encoding (30_encoding.md). First the decode table row by row, then the length that
an opcode byte fixes and the fetch of a byte that no row has; then one theorem per statement. -/

namespace Sys2Proof

/-! ### The decode table -/

/-- A row's opcode byte decodes to the row's own triple: no earlier row has the byte (30_encoding.md R93). -/
theorem decodeOpcode_of_row : ∀ row ∈ decodeTable, decodeOpcode row.opcode = some row.decoded := by decide

/-- Unknown is exactly the bytes that are no row's opcode (30_encoding.md R94). -/
theorem decodeOpcode_eq_none_iff_not_mem {op : Byte} :
    decodeOpcode op = none ↔ op ∉ decodeTable.map Row.opcode := by
  rw [decodeOpcode_eq_none, lookup, List.find?_eq_none]
  simp only [beq_iff_eq, List.mem_map, not_exists, not_and]

/-! ### The bytes of an instruction -/

/-- No mode has more than two operand bytes (30_encoding.md R91). -/
theorem Mode.operandBytes_le_two (m : Mode) : m.operandBytes ≤ 2 := by
  cases m <;> decide

/-- Every instruction is encoded by the row of its own opcode byte (30_encoding.md R90, R93). -/
theorem Instr.ownRow : ∀ i : Instr, Laws.OwnRow.Statement i
  | .jsr ea => Laws.OwnRow.jsr ea
  | .andIndX zp => Laws.OwnRow.andIndX zp
  | .jmp ea => Laws.OwnRow.jmp ea
  | .sei => Laws.OwnRow.sei
  | .dey => Laws.OwnRow.dey
  | .sta ea => Laws.OwnRow.sta ea
  | .txs => Laws.OwnRow.txs
  | .ldyImm imm => Laws.OwnRow.ldyImm imm
  | .ldxImm imm => Laws.OwnRow.ldxImm imm
  | .ldaImm imm => Laws.OwnRow.ldaImm imm
  | .ldaAbsX base => Laws.OwnRow.ldaAbsX base
  | .bne off => Laws.OwnRow.bne off
  | .inx => Laws.OwnRow.inx

/-- The length follows from what the opcode byte decodes to (30_encoding.md R90, R91). -/
theorem Instr.length_eq_of_decodeOpcode {i : Instr} {d : Decoded} (h : decodeOpcode i.opcode = some d) :
    i.length = d.mode.operandBytes + 1 := by
  obtain ⟨hrow, hbytes, hlen⟩ := i.ownRow
  have hd : i.form.decoded = d := Option.some.inj (hrow.symm.trans h)
  rw [Instr.length, hbytes, List.length_cons, hlen, hd]

namespace Machine

/-! ### Fetching a byte that no row has -/

/-- Fetching an opcode byte outside the decode table raises UnknownOpcode of that byte and its address
(30_encoding.md R97). -/
theorem fetchInstr_of_unknown {s : State} (hp : isPort s.pc = false) (h : decodeOpcode (s.load s.pc) = none) :
    fetchInstr s = .error (.unknownOpcode (s.load s.pc) s.pc) := by
  rw [fetchInstr, fetch_plain s hp]
  simp only [decodeOpcode_eq_none.mp h]

end Machine

/-! ### The statements -/

/-- Settles O2: each instruction is its own row's encoding, and one opcode byte has one row. -/
theorem opcodeByteFixesModeAndLength : Obligations.OpcodeByteFixesModeAndLength := by
  refine ⟨fun i => ?_, fun i j hij => ?_⟩
  · obtain ⟨hrow, hbytes, hlen⟩ := i.ownRow
    exact ⟨i.form.decoded, i.form.operands, hbytes, hrow, hlen, hlen.trans_le (Mode.operandBytes_le_two _)⟩
  · obtain ⟨hrow, -, -⟩ := j.ownRow
    rw [Instr.length_eq_of_decodeOpcode hrow, Instr.length_eq_of_decodeOpcode (hij ▸ hrow)]

/-- Settles O1: the rows listed are those of the decode table, each with its opcode byte, triple and length. -/
theorem decodeTableIsExactlyTheThirteenRows : Obligations.DecodeTableIsExactlyTheThirteenRows := by
  unfold Obligations.DecodeTableIsExactlyTheThirteenRows
  intro rows
  have hrows : rows = decodeTable.map fun r => (r.opcode, r.decoded, 1 + r.decoded.mode.operandBytes) := rfl
  have hopcodes : rows.map (·.1) = decodeTable.map Row.opcode := rfl
  refine ⟨?_, fun b hb => ?_⟩
  · rw [hrows, List.forall_mem_map]
    exact fun row h => ⟨decodeOpcode_of_row row h, rfl⟩
  · rw [hopcodes] at hb
    exact decodeOpcode_eq_none_iff_not_mem.mpr hb

/-- Settles O8: the fetch raises UnknownOpcode, and the step of a running machine is the taking of what the fetch
raises. -/
theorem unknownOpcodeHalts : Obligations.UnknownOpcodeHalts := fun s hr hp h =>
  Machine.systemIteration_error s Config.cpuCycles hr (Machine.fetchInstr_of_unknown hp h)

end Sys2Proof

/-! PROOF. The statements about the status flags (41_status_flags.md). -/

namespace Sys2Proof.Machine

/-- Giving the six CPU registers any values leaves everything else as before. -/
theorem sameButRegisters_update (s : State) (a x y sp p : Byte) (pc : Word) :
    SameButRegisters s { s with a := a, x := x, y := y, sp := sp, p := p, pc := pc } :=
  ⟨fun _ => rfl, fun _ => rfl, ⟨rfl, rfl, rfl, rfl⟩, rfl, rfl⟩

/-- A flag write sets its own bit to the value written. -/
theorem setFlag_getLsbD_bit (p : Byte) (f : Flag) (on : Bool) : (setFlag p f on).getLsbD f.bit = on := by
  rw [setFlag_getLsbD, if_pos rfl]

/-- A flag write keeps every other bit. -/
theorem setFlag_getLsbD_of_ne (p : Byte) {f : Flag} (on : Bool) {k : Nat} (h : k ≠ f.bit) :
    (setFlag p f on).getLsbD k = p.getLsbD k := by
  rw [setFlag_getLsbD, if_neg h]

/-- Settles O17: SEI is one write of the flag I (bit 2 of P) and the step of PC past its opcode byte. -/
theorem seiSetsInterruptDisable : Obligations.SeiSetsInterruptDisable :=
  ⟨rfl, fun s => ⟨_, exec_sei s, setFlag_getLsbD_bit s.p .i true, fun _ hk => setFlag_getLsbD_of_ne s.p true hk,
    rfl, rfl, rfl, rfl, rfl, sameButRegisters_update s _ _ _ _ _ _⟩⟩

end Sys2Proof.Machine

/-! PROOF. The statements about loads, stores and transfer (42_load_store_transfer.md). Each is the instruction's
equation of Laws/Exec.lean, its bytes, and a lemma per part of its effect: SetNZ, the frame of the CPU registers, the
MemRead or the MemWrite. -/

namespace Sys2Proof.Machine

/-- `SetNZ(v)` writes Z and N from `v` and keeps every other bit of P (41_status_flags.md R140). -/
theorem nzSet_setNZ (v p : Byte) : NZSet v p (setNZ p v) := by
  refine ⟨?_, ?_, fun k h1 h7 => ?_⟩
  · rw [setNZ_getLsbD, if_neg (by decide), if_pos rfl]
  · rw [setNZ_getLsbD, if_pos rfl]
  · rw [setNZ_getLsbD, if_neg h7, if_neg h1]

/-- A read's effect outside the CPU registers is still that read's effect once these six are given any values. -/
theorem ReadsByte.update {s t : State} {ea : Word} {v : Byte} (h : ReadsByte s ea v t) (a x y sp p : Byte) (pc : Word) :
    ReadsByte s ea v { t with a := a, x := x, y := y, sp := sp, p := p, pc := pc } := h

/-- Settles O19: the one MemRead is at base + X, and what else the instruction does is to A, P and PC. -/
theorem ldaAbsoluteXReadsOnce : Obligations.LdaAbsoluteXReadsOnce := by
  refine fun base => ⟨rfl, fun s => ⟨_, exec_ldaAbsX s base, ?_, nzSet_setNZ _ s.p, rfl, ?_, ?_, ?_⟩⟩
  · exact (memRead_readsByte s (s.absoluteX base)).update _ _ _ _ _ _
  · exact State.afterRead_x s _
  · exact State.afterRead_y s _
  · exact State.afterRead_sp s _

/-- Settles O18: each of the three loads is a write of its register, one SetNZ of the immediate and the step of PC past
two bytes. -/
theorem immediateLoadsLoadTheirRegister : Obligations.ImmediateLoadsLoadTheirRegister := by
  refine fun imm => ⟨⟨rfl, fun s => ⟨_, exec_ldaImm s imm, ?_⟩⟩, ⟨rfl, fun s => ⟨_, exec_ldxImm s imm, ?_⟩⟩,
    ⟨rfl, fun s => ⟨_, exec_ldyImm s imm, ?_⟩⟩⟩
  all_goals
    exact ⟨rfl, nzSet_setNZ imm s.p, rfl, rfl, rfl, rfl, sameButRegisters_update s _ _ _ _ _ _⟩

/-- Settles O20: STA is one MemWrite and the step of PC past three bytes. -/
theorem staWritesTheAccumulator : Obligations.StaWritesTheAccumulator := fun ea =>
  ⟨rfl, fun s => ⟨exec_sta s ea, memWrite_writesByte s ea s.a⟩⟩

/-- Settles O21: TXS is one write of SP and the step of PC past its opcode byte. -/
theorem txsCopiesXIntoSp : Obligations.TxsCopiesXIntoSp :=
  ⟨rfl, fun s => ⟨_, exec_txs s, rfl, rfl, rfl, rfl, rfl, rfl, sameButRegisters_update s _ _ _ _ _ _⟩⟩

end Sys2Proof.Machine

/-! PROOF. The statements about increment, decrement and logic (43_arith_logic.md). INX and DEY are the instruction's
equation of Laws/Exec.lean and their arithmetic modulo 256; AND needs, beside its equation, its pointer written over
the zero page. -/

namespace Sys2Proof.Machine

section

variable (s : State)

/-! ### The pointer of (zp,X) -/

/-- The byte at a zero-page address. -/
theorem State.load_zext16 (b : Byte) : s.load (zext16 b) = s.mem.read b.toNat := by
  rw [State.load, zext16_toNat]

/-- The address of the pointer's low byte, as a number (40_pipeline_addressing.md R118). -/
theorem State.zeroPage_toNat (zp : Byte) : (s.zeroPage zp).toNat = (zp.toNat + s.x.toNat) % 256 :=
  BitVec.toNat_add zp s.x

/-- The address of the pointer's high byte, as a number: it wraps inside the zero page (40_pipeline_addressing.md
R118). -/
theorem State.zeroPage_next_toNat (zp : Byte) :
    (s.zeroPage zp + 1#8).toNat = (zp.toNat + s.x.toNat + 1) % 256 := by
  rw [BitVec.toNat_add, State.zeroPage_toNat]
  exact Nat.mod_add_mod _ _ _

/-- The pointer of (zp,X) over the bytes of AddressSpace, low byte first (40_pipeline_addressing.md R118). -/
theorem State.pointer_eq (zp : Byte) :
    s.pointer zp = wordOf (s.mem.read ((zp.toNat + s.x.toNat + 1) % 256))
      (s.mem.read ((zp.toNat + s.x.toNat) % 256)) := by
  rw [State.pointer, State.load_zext16, State.load_zext16, State.zeroPage_next_toNat, State.zeroPage_toNat]

end

/-! ### The statements -/

/-- Settles O24: the one MemRead with an effect is through the pointer, and what else the instruction does is to A, P
and PC. -/
theorem andIndirectMasksTheAccumulator : Obligations.AndIndirectMasksTheAccumulator := by
  refine fun zp => ⟨rfl, fun s => ?_⟩
  intro lo hi
  have hptr : (hi.setWidth 16 <<< 8) ||| lo.setWidth 16 = s.pointer zp := (State.pointer_eq s zp).symm
  rw [hptr]
  refine ⟨_, s.readByte (s.pointer zp), exec_andIndX s zp, ?_, rfl, nzSet_setNZ _ s.p, rfl, ?_, ?_, ?_⟩
  · exact (memRead_readsByte s (s.pointer zp)).update _ _ _ _ _ _
  · exact State.afterRead_x s _
  · exact State.afterRead_y s _
  · exact State.afterRead_sp s _

/-- Settles O22: INX is one addition to X modulo 256, its SetNZ and the step of PC past its opcode byte. -/
theorem inxIncrementsX : Obligations.InxIncrementsX :=
  ⟨rfl, fun s => ⟨_, exec_inx s, BitVec.toNat_add s.x 1#8, nzSet_setNZ _ s.p, rfl, rfl, rfl, rfl,
    sameButRegisters_update s _ _ _ _ _ _⟩⟩

/-- Settles O23: DEY is one subtraction from Y, which modulo 256 adds 255, its SetNZ and the step of PC past its opcode
byte. -/
theorem deyDecrementsY : Obligations.DeyDecrementsY := by
  refine ⟨rfl, fun s => ⟨_, exec_dey s, ?_, nzSet_setNZ _ s.p, rfl, rfl, rfl, rfl,
    sameButRegisters_update s _ _ _ _ _ _⟩⟩
  rw [BitVec.toNat_sub, Nat.add_comm]
  rfl

end Sys2Proof.Machine

/-! PROOF. The statements about control transfer (44_control_transfer.md). JMP and BNE are the instruction's equation
of Laws/Exec.lean; JSR needs, beside its equation, what two pushes in a row do. -/

namespace Sys2Proof.Machine

section

variable (s : State)

/-! ### Two pushes in a row -/

/-- The stack byte that SP designates after a push: SP wraps inside the stack page (20_memory.md R71, R72). -/
theorem State.push_stackAddress (v : Byte) : (s.push v).stackAddress = 0x0100#16 + zext16 (s.sp - 1#8) := by
  rw [State.stackAddress, State.push_sp]

/-- Two pushes in a row write two different bytes, whatever SP is. -/
theorem State.push_stackAddress_ne (v : Byte) : s.stackAddress ≠ (s.push v).stackAddress := by
  rw [ne_eq, ← BitVec.toNat_inj, stackAddress_toNat, stackAddress_toNat, State.push_sp]
  bv_omega

/-- The first of two pushed bytes still stands after the second push. -/
theorem State.load_push_push_first (v w : Byte) : ((s.push v).push w).load s.stackAddress = v := by
  rw [State.load_push, if_neg (State.push_stackAddress_ne s v), State.load_push, if_pos rfl]

/-- The second of two pushed bytes stands where SP is after the first push. -/
theorem State.load_push_push_second (v w : Byte) :
    ((s.push v).push w).load (0x0100#16 + zext16 (s.sp - 1#8)) = w := by
  rw [State.load_push, State.push_stackAddress, if_pos rfl]

/-- Two pushes keep every byte of AddressSpace but the two they write. -/
theorem State.load_push_push_other (v w : Byte) {b : Word} (h1 : b ≠ s.stackAddress)
    (h2 : b ≠ 0x0100#16 + zext16 (s.sp - 1#8)) : ((s.push v).push w).load b = s.load b := by
  rw [State.load_push, State.push_stackAddress, if_neg h2, State.load_push, if_neg h1]

/-- Two pushes lower SP by two, modulo 256. -/
theorem State.push_push_sp (v w : Byte) : ((s.push v).push w).sp = s.sp - 2#8 := by
  rw [State.push_sp, State.push_sp]
  bv_omega

end

/-! ### The statements -/

/-- Settles O27: JSR is two pushes of the address of its last byte and one write of PC; the two stack bytes differ, so
the second push leaves the high byte standing. -/
theorem jsrPushesTheReturnAddress : Obligations.JsrPushesTheReturnAddress := by
  refine fun ea => ⟨rfl, fun s => ?_⟩
  have hload := State.load_congr
    (State.setPc_mem ((s.push (hiByte (s.pc + 2#16))).push (loByte (s.pc + 2#16))) ea)
  refine ⟨_, exec_jsr s ea, ?hi, ?lo, fun b h1 h2 => ?others, State.push_push_sp s _ _, rfl, ?a, ?x, ?y, ?p, ?vram,
    ⟨?cur, ?tmp, ?fineX, ?toggle⟩, ?ppu, ?halted⟩
  case hi => exact (hload _).trans (State.load_push_push_first s _ _)
  case lo => exact (hload _).trans (State.load_push_push_second s _ _)
  case others => exact (hload b).trans (State.load_push_push_other s _ _ h1 h2)
  case vram => exact State.vload_congr (by simp)
  all_goals simp

/-- Settles O25, by the two values of Z (bit 1 of P). -/
theorem bneBranchesWhenZeroIsClear : Obligations.BneBranchesWhenZeroIsClear := by
  refine fun off => ⟨rfl, fun s => ⟨_, exec_bne s off, fun hz => ?clear, fun hz => if_pos hz, rfl, rfl, rfl, rfl, rfl,
    sameButRegisters_update s _ _ _ _ _ _⟩⟩
  case clear =>
    have hflag : s.flag .z = false := hz
    rw [hflag, if_neg Bool.false_ne_true, ← pc_advance s.pc 1 1]
    rfl

/-- Settles O26: JMP is one write of PC. -/
theorem jmpSetsPc : Obligations.JmpSetsPc := fun ea =>
  ⟨rfl, fun s => ⟨_, exec_jmp s ea, rfl, rfl, rfl, rfl, rfl, rfl, sameButRegisters_update s _ _ _ _ _ _⟩⟩

end Sys2Proof.Machine

/-! PROOF. The statements about the PPU renderer (48_ppu_renderer.md). First the position as a number of cycles, then
what an idle, a pixel and a prefetch cycle do, then where a tile fetch reads. -/

namespace Sys2Proof.Machine

section

variable (v : PpuView) (p : Ppu)

/-! ### The position as a number of cycles -/

/-- A legal position is one of the 89 342 of a frame (48_ppu_renderer.md R211). -/
theorem Ppu.index_range (h : p.Legal) : 0 ≤ p.index ∧ p.index < 89342 := by
  unfold Ppu.index
  omega

/-- One step is one cycle further on, modulo a frame: by the three ways a position moves on. -/
theorem Ppu.step_index (h : p.Legal) : (p.step v).index = (p.index + 1) % 89342 := by
  obtain ⟨hs, hc⟩ := p.step_position v
  unfold Ppu.index
  rw [hs, hc]
  by_cases hcycle : p.cycle = 340
  · by_cases hline : p.scanline = 260
    · simp [hcycle, hline]
    · rw [if_pos hcycle, if_neg hline, if_pos hcycle]
      omega
  · rw [if_neg hcycle, if_neg hcycle]
    omega

/-! ### Idle cycles -/

/-- No cycle of scanlines 240 to 260 has an action (48_ppu_renderer.md R214). -/
theorem Ppu.action_of_post_render (h : 240 ≤ p.scanline) : p.action v = p := by
  have hvis : p.visible = false := by
    unfold Ppu.visible
    simp only [Bool.and_eq_false_iff, decide_eq_false_iff_not]
    omega
  unfold Ppu.action
  rw [hvis, if_neg Bool.false_ne_true, if_neg (by omega)]

/-- A step without an action is the timing advance alone (48_ppu_renderer.md R210). -/
theorem Ppu.step_of_action_eq (h : p.action v = p) : p.step v = p.advance := congrArg Ppu.advance h

/-! ### The colour of a pixel -/

/-- The palette number is two bits of `attr_byte` (48_ppu_renderer.md R223). -/
theorem paletteNumber_eq (a : Byte) (x y : Nat) :
    paletteNumber a x y = a.toNat / 2 ^ (2 * (2 * (y / 16 % 2) + x / 16 % 2)) % 4 := by
  unfold paletteNumber
  simp only
  rw [BitVec.toNat_ushiftRight, Nat.shiftRight_eq_div_pow]

theorem Ppu.patternPair_lt : p.patternPair < 4 := by
  have hhi := Bool.toNat_lt (p.patHi.getLsbD 15)
  have hlo := Bool.toNat_lt (p.patLo.getLsbD 15)
  unfold Ppu.patternPair
  omega

/-- The sixteen colours of the background palettes are read in palette RAM as they stand (48_ppu_renderer.md R227). -/
theorem PpuView.colour_eq {idx : Nat} (h : idx < 16) :
    v.colour idx = Config.nesColor (Fin.ofNat 64 (v.vram.read (0x3F00 + idx)).toNat) := by
  have hlt : 0x3F00 + idx < vramSize := by
    unfold vramSize
    omega
  unfold PpuView.colour PpuView.colourNumber
  rw [v.vread_of_lt hlt]

/-- The colour of a pixel cycle's event, read straight from VRam. -/
theorem Ppu.pixel_eq :
    p.pixel v =
      { x := p.cycle - 1
        y := p.scanline.toNat
        rgba := Config.nesColor (Fin.ofNat 64 (v.vram.read
          (0x3F00 + (paletteNumber p.attrLatch (p.cycle - 1) p.scanline.toNat * 4 + p.patternPair))).toNat) } := by
  have hpal : paletteNumber p.attrLatch (p.cycle - 1) p.scanline.toNat < 4 := Nat.mod_lt _ (by decide)
  have hpair := p.patternPair_lt
  exact congrArg (Pixel.mk _ _) (v.colour_eq (by omega))

/-! ### The two kinds of pixel cycle -/

theorem Ppu.pixelCycle_between_reloads (h : p.cycle % 8 ≠ 0) : p.pixelCycle v = p.emitAndShift v := if_neg h

theorem Ppu.pixelCycle_reload (h : p.cycle % 8 = 0) :
    p.pixelCycle v = (p.emitAndShift v).reload v (p.cycle / 8) p.scanline.toNat := if_pos h

/-! ### The two prefetch loads -/

theorem Ppu.prefetch_first (h : p.cycle = 328) : p.prefetch v = p.prefetchFirst v (p.scanline + 1).toNat := if_pos h

theorem Ppu.prefetch_second (h : p.cycle = 336) : p.prefetch v = p.prefetchSecond v (p.scanline + 1).toNat := by
  unfold Ppu.prefetch
  rw [if_neg (by omega), if_pos h]

/-! ### Where a tile fetch reads -/

/-- The world's origin in `cur`, its fields as arithmetic on the whole register (48_ppu_renderer.md R224). -/
theorem PpuView.world_eq (m row : Nat) :
    let wx := (8 * (v.cur.toNat % 32) + 256 * (v.cur.toNat / 1024 % 2) + 8 * m) % 512
    let wy := (8 * (v.cur.toNat / 32 % 32) + v.cur.toNat / 4096 + 240 * (v.cur.toNat / 2048 % 2) + row) % 480
    v.world m row =
      { n := wx / 256 + 2 * (wy / 240), tx := wx % 256 / 8, ty := wy % 240 / 8, r := wy % 240 % 8 } := by
  have hfine : v.cur.toNat / 4096 % 8 = v.cur.toNat / 4096 := by omega
  unfold PpuView.world
  simp [field_eq, hfine]

/-- A fetch position is a tile of one of the four name tables (48_ppu_renderer.md R224). -/
theorem PpuView.world_bounds (m row : Nat) :
    (v.world m row).n < 4 ∧ (v.world m row).tx < 32 ∧ (v.world m row).ty < 30 ∧ (v.world m row).r < 8 := by
  unfold PpuView.world
  simp only
  omega

/-- `nt_addr` is in the tile part of its name table (48_ppu_renderer.md R225). -/
theorem PpuView.ntAddr_range (m row : Nat) :
    0x2000 + 0x400 * (v.world m row).n ≤ (v.world m row).ntAddr ∧
      (v.world m row).ntAddr < 0x2000 + 0x400 * (v.world m row).n + 0x3C0 := by
  have hw := v.world_bounds m row
  unfold World.ntAddr
  omega

/-- `at_addr` is in the last 64 bytes of its name table (48_ppu_renderer.md R225). -/
theorem PpuView.atAddr_range (m row : Nat) :
    0x2000 + 0x400 * (v.world m row).n + 0x3C0 ≤ (v.world m row).atAddr ∧
      (v.world m row).atAddr < 0x2000 + 0x400 * ((v.world m row).n + 1) := by
  have hw := v.world_bounds m row
  unfold World.atAddr
  omega

/-- `attr_byte` is read straight from VRam. -/
theorem PpuView.attrByte_eq (m row : Nat) : v.attrByte m row = v.vram.read (v.world m row).atAddr := by
  have hw := v.world_bounds m row
  have hat := v.atAddr_range m row
  exact v.vread_of_lt (by unfold vramSize; omega)

/-- The pattern address, its tile index read straight from VRam (48_ppu_renderer.md R226). -/
theorem PpuView.patternAddr_eq (m row : Nat) :
    v.patternAddr m row = 0x1000 * (v.ctrl.getLsbD 4).toNat +
      16 * (v.vram.read (v.world m row).ntAddr).toNat + (v.world m row).r := by
  have hw := v.world_bounds m row
  have hnt := v.ntAddr_range m row
  unfold PpuView.patternAddr
  simp only
  rw [v.vread_of_lt (by unfold vramSize; omega)]
  cases v.ctrl.getLsbD 4 <;> rfl

/-- Both pattern bytes of a tile are in the pattern tables. -/
theorem PpuView.patternAddr_lt (m row : Nat) : v.patternAddr m row + 8 < 0x2000 := by
  have hw := v.world_bounds m row
  have htable := Bool.toNat_lt (v.ctrl.getLsbD 4)
  have htile := (v.vram.read (v.world m row).ntAddr).isLt
  rw [v.patternAddr_eq]
  omega

/-- The low pattern byte is read straight from VRam. -/
theorem PpuView.tileLo_eq (m row : Nat) : v.tileLo m row = v.vram.read (v.patternAddr m row) := by
  have h := v.patternAddr_lt m row
  exact v.vread_of_lt (by unfold vramSize; omega)

/-- The high pattern byte is read straight from VRam. -/
theorem PpuView.tileHi_eq (m row : Nat) : v.tileHi m row = v.vram.read (v.patternAddr m row + 8) := by
  have h := v.patternAddr_lt m row
  exact v.vread_of_lt (by unfold vramSize; omega)

end

/-! ### The statements -/

/-- Settles O51, by induction on the number of cycles: a step keeps the position legal and is one cycle further on
modulo a frame. -/
theorem ppuPositionCountsModuloOneFrame : Obligations.PpuPositionCountsModuloOneFrame := by
  intro v p n h
  induction n generalizing p with
  | zero =>
    have hrange := p.index_range h
    rw [Ppu.run_zero]
    exact ⟨h, by omega⟩
  | succ n ih =>
    obtain ⟨hlegal, hindex⟩ := ih (p.step v) (p.step_legal v h)
    rw [Ppu.run_succ, hindex, p.step_index v h]
    exact ⟨hlegal, by omega⟩

/-- Settles O52: scanlines 240 to 260 have no action, and elsewhere the positions are the idle ones of a scanline. -/
theorem idleCyclesOnlyAdvance : Obligations.IdleCyclesOnlyAdvance := by
  rintro v p - (hpost | ⟨h328, h336, h⟩)
  · exact p.step_of_action_eq v (p.action_of_post_render v hpost)
  · exact p.step_of_action_eq v (p.action_idle v h328 h336 (by omega))

/-- Settles O53: the event is the state's before the shift, and what follows it is the shift alone or the shift and
the reload. -/
theorem pixelCycleEmitsShiftsAndReloads : Obligations.PixelCycleEmitsShiftsAndReloads := by
  intro v p y hline hy h1 h256 x pair q pal t
  have hstep : t = { p.pixelCycle v with cycle := p.cycle + 1 } := p.step_pixel v hline hy h1 h256
  have hrow : p.scanline.toNat = y := by omega
  rw [hstep]
  refine ⟨?pixels, p.pixelCycle_scanline v, rfl, fun hbetween => ?shift, fun hreload => ?reload⟩
  case pixels =>
    rw [Ppu.pixelCycle_pixels, Ppu.pixel_eq, hrow, paletteNumber_eq]
    rfl
  case shift =>
    rw [p.pixelCycle_between_reloads v hbetween]
    exact ⟨rfl, rfl, rfl⟩
  case reload =>
    rw [p.pixelCycle_reload v hreload, hrow]
    exact ⟨hiByte_withLow _ _, loByte_withLow _ _, hiByte_withLow _ _, loByte_withLow _ _, rfl⟩

/-- Settles O54, by the three ranges of cycle: the two loads each write one byte of a shifter, and the rest is idle. -/
theorem prefetchLoadsTheNextRow : Obligations.PrefetchLoadsTheNextRow := by
  intro v p row hrow hle t
  have hnext : (p.scanline + 1).toNat = row := by omega
  refine ⟨fun hc => ?first, fun hc => ?second, fun h321 h335 h328 => ?idle⟩
  case first =>
    have hstep : t = { p.prefetchFirst v row with cycle := p.cycle + 1 } := by
      rw [← hnext, ← p.prefetch_first v hc]
      exact p.step_prefetch v (by omega) (by omega) (by omega)
    rw [hstep]
    exact ⟨hiByte_withHigh _ _, hiByte_withHigh _ _, loByte_withHigh _ _, loByte_withHigh _ _, rfl, rfl⟩
  case second =>
    have hstep : t = { p.prefetchSecond v row with cycle := p.cycle + 1 } := by
      rw [← hnext, ← p.prefetch_second v hc]
      exact p.step_prefetch v (by omega) (by omega) (by omega)
    rw [hstep]
    exact ⟨loByte_withLow _ _, loByte_withLow _ _, hiByte_withLow _ _, hiByte_withLow _ _, rfl, rfl⟩
  case idle => exact p.step_of_action_eq v (p.action_idle v h328 (by omega) (by omega))

/-- Settles O55: the position is the spec's formula, so the model's addresses are the spec's, and their ranges make
every masked read a plain one. -/
theorem fetchAddressesStayInTheirTables : Obligations.FetchAddressesStayInTheirTables := by
  refine ⟨fun _ => rfl, fun v m row => ?_⟩
  intro c ox oy wx wy n tx ty r nt at' lo w
  have hw : v.world m row = ⟨n, tx, ty, r⟩ := v.world_eq m row
  have hlo : v.patternAddr m row = lo := by
    rw [v.patternAddr_eq, hw]
    rfl
  have hbounds := v.world_bounds m row
  have hntRange := v.ntAddr_range m row
  have hatRange := v.atAddr_range m row
  rw [hw] at hbounds hntRange hatRange
  refine ⟨⟨congrArg World.n hw, congrArg World.tx hw, congrArg World.ty hw, congrArg World.r hw⟩,
    ⟨congrArg World.ntAddr hw, congrArg World.atAddr hw⟩, hlo, ?low, ?high, ?attrByte, hbounds, hntRange, hatRange,
    ?tables⟩
  case low => rw [v.tileLo_eq, hlo]
  case high => rw [v.tileHi_eq, hlo]
  case attrByte =>
    rw [v.attrByte_eq, hw]
    rfl
  case tables =>
    rw [← hlo]
    exact v.patternAddr_lt m row

end Sys2Proof.Machine

/-! PROOF. The statements about faults (60_exceptions.md). A step that answers a state holding a record took the fault
that its fetch raised; what the record says is then read off the taking of that fault. -/

namespace Sys2Proof.Machine

/-! ### Faulting steps -/

/-- The address that UnknownOpcode names is that of the instruction fetched (60_exceptions.md R267). -/
theorem fetchInstr_unknownOpcode_pc {s : State} {b : Byte} {pc : Word}
    (h : fetchInstr s = .error (.unknownOpcode b pc)) : pc = s.pc := by
  obtain ⟨-, hc⟩ | ⟨-, -, hc⟩ | ⟨-, hc⟩ | ⟨-, hc⟩ := fetchInstr_error h
  case inr.inl => exact (Cause.unknownOpcode.inj hc).2
  all_goals cases hc

/-- The PPU cycles after an instruction raise no fault (60_exceptions.md R278). -/
@[simp] theorem State.runPpu_halted (s : State) (n : Nat) : (s.runPpu n).halted = s.halted := State.setPpu_halted s _

/-- A step that answers a state holding a record took the fault its fetch raised: an instruction that completes leaves
the machine running (60_exceptions.md R264). -/
theorem step_next_halted {s t : State} {r : FaultRecord} (h : step s = .next t) (ht : t.halted = some r) :
    ∃ c, fetchInstr s = .error c ∧ t = s.raise c ∧ r = ⟨c, s.registers⟩ := by
  obtain ⟨-, ⟨c, hf, rfl⟩ | ⟨i, u, -, -, hu, rfl⟩⟩ := step_next h
  case inl => exact ⟨c, hf, rfl, (Option.some.inj ht).symm⟩
  case inr =>
    rw [State.runPpu_halted, hu] at ht
    cases ht

/-! ### The statements -/

/-- Settles O11: the faulting step is the taking of the fault its fetch raised, which records the registers and sets
`halted` alone. -/
theorem faultsArePreciseAndRecordTheRegisters : Obligations.FaultsArePreciseAndRecordTheRegisters := by
  intro s t r _ hstep ht
  obtain ⟨c, hf, rfl, rfl⟩ := step_next_halted hstep ht
  refine ⟨rfl, rfl, rfl, fun b pc hc => ?unknownPc⟩
  case unknownPc => exact fetchInstr_unknownOpcode_pc (hf.trans (congrArg Except.error hc))

end Sys2Proof.Machine

/-! PROOF. The statements about the load contract (70_reset_and_hazards.md). First the 32 KiB image that PRG gives,
byte by byte; then what a loaded state holds in each memory and in PC; then the statements. -/

namespace Sys2Proof.Machine

section

variable {init : InitValues} {prg chr : List Byte} {s : State}

/-! ### The image of PRG -/

/-- Both halves of the image of a one-bank PRG hold that bank (70_reset_and_hazards.md R291). -/
theorem getElem?_prgImage_of_oneBank (h1 : prg.length = 16384) {i : Nat} (hi : i < 0x4000) :
    (prgImage prg)[i]? = prg[i]? ∧ (prgImage prg)[0x4000 + i]? = prg[i]? := by
  have himage : prgImage prg = prg ++ prg := if_pos (by rw [h1, bankSize])
  rw [himage]
  refine ⟨List.getElem?_append_left (by omega), ?high⟩
  case high => rw [List.getElem?_append_right (by omega), h1, Nat.add_sub_cancel_left]

/-- The image of a larger PRG is its first two banks (70_reset_and_hazards.md R291). -/
theorem getElem?_prgImage_of_moreBanks (hsize : prg.length % bankSize = 0) (h1 : prg.length ≠ 16384) {i : Nat}
    (hi : i < 0x8000) : (prgImage prg)[i]? = prg[i]? := by
  have hbanks : prg.length / bankSize ≠ 1 := by
    unfold bankSize at *
    omega
  have himage : prgImage prg = prg.take (2 * bankSize) := if_neg hbanks
  rw [himage]
  exact List.getElem?_take_of_lt hi

/-! ### The loaded state -/

/-- The image of PRG stands in AddressSpace from 0x8000 on (70_reset_and_hazards.md R291). -/
theorem initializeCore_read_image (h : initializeCore init prg chr = .ok s) {i : Nat} (hi : i < 0x8000) :
    (prgImage prg)[i]? = some (s.mem.read (0x8000 + i)) := by
  obtain ⟨hsize, -, rfl⟩ := initializeCore_ok h
  have hlen : (prgImage prg).length = 0x8000 := prgImage_length hsize
  exact Memory.getElem?_place init.mem 0x8000 (prgImage prg) (by rwa [hlen])

/-- A one-bank PRG stands at 0x8000 and at 0xC000 (70_reset_and_hazards.md R291). -/
theorem initializeCore_read_oneBank (h : initializeCore init prg chr = .ok s) (h1 : prg.length = 16384) {i : Nat}
    (hi : i < 0x4000) :
    prg[i]? = some (s.mem.read (0x8000 + i)) ∧ prg[i]? = some (s.mem.read (0xC000 + i)) := by
  obtain ⟨hlow, hhigh⟩ := getElem?_prgImage_of_oneBank h1 hi
  rw [initializeCore_read_image h (by omega)] at hlow hhigh
  rw [← Nat.add_assoc] at hhigh
  exact ⟨hlow.symm, hhigh.symm⟩

/-- The first two banks of a larger PRG stand at 0x8000 (70_reset_and_hazards.md R291). -/
theorem initializeCore_read_moreBanks (h : initializeCore init prg chr = .ok s) (h1 : prg.length ≠ 16384) {i : Nat}
    (hi : i < 0x8000) : prg[i]? = some (s.mem.read (0x8000 + i)) := by
  obtain ⟨hsize, -, -⟩ := initializeCore_ok h
  rw [← getElem?_prgImage_of_moreBanks (by omega) h1 hi, initializeCore_read_image h hi]

/-- A load touches nothing below 0x8000 (70_reset_and_hazards.md R291). -/
theorem initializeCore_read_below (h : initializeCore init prg chr = .ok s) {a : Nat} (ha : a < 0x8000) :
    s.mem.read a = init.mem.read a := by
  obtain ⟨-, -, rfl⟩ := initializeCore_ok h
  exact Memory.read_place_outside init.mem 0x8000 (prgImage prg) (Or.inl ha)

/-- CHR stands in VRam from index 0 on (70_reset_and_hazards.md R292). -/
theorem initializeCore_read_chr (h : initializeCore init prg chr = .ok s) {i : Nat} (hi : i < chr.length) :
    chr[i]? = some (s.vram.read i) := by
  obtain ⟨-, -, rfl⟩ := initializeCore_ok h
  have hplaced := Memory.getElem?_place init.vram 0 chr hi
  rwa [Nat.zero_add] at hplaced

/-- A load touches nothing of VRam behind CHR (70_reset_and_hazards.md R292). -/
theorem initializeCore_read_behind_chr (h : initializeCore init prg chr = .ok s) {i : Nat} (hi : chr.length ≤ i) :
    s.vram.read i = init.vram.read i := by
  obtain ⟨-, -, rfl⟩ := initializeCore_ok h
  exact Memory.read_place_outside init.vram 0 chr (Or.inr (by omega))

/-- PC is the reset vector of the loaded AddressSpace (70_reset_and_hazards.md R293). -/
theorem initializeCore_pc (h : initializeCore init prg chr = .ok s) : s.pc = resetVector s.mem := by
  obtain ⟨-, -, rfl⟩ := initializeCore_ok h
  rfl

end

/-! ### The statements -/

/-- Settles O46: the image of PRG is one bank twice or the first two banks, and it is placed from 0x8000 on. -/
theorem prgIsPlacedFrom8000 : Obligations.PrgIsPlacedFrom8000 := by
  intro init prg chr s h
  refine ⟨fun h1 i hi => ?oneBank, fun h1 i hi => ?moreBanks, fun a ha => ?below⟩
  case oneBank => exact initializeCore_read_oneBank h h1 hi
  case moreBanks => exact initializeCore_read_moreBanks h h1 hi
  case below => exact initializeCore_read_below h ha

/-- Settles O47: CHR is placed from index 0 on, over INIT_VRAM. -/
theorem chrIsCopiedToVRam : Obligations.ChrIsCopiedToVRam := by
  intro init prg chr s h
  exact ⟨fun i hi => initializeCore_read_chr h hi, fun i hi => initializeCore_read_behind_chr h hi⟩

/-- Settles O48: the vector's two bytes are the placed bytes 0x3FFC and 0x3FFD of the bank at 0xC000, or 0x7FFC and
0x7FFD of the two banks at 0x8000. -/
theorem resetPcComesFromTheVector : Obligations.ResetPcComesFromTheVector := by
  intro init prg chr s h
  refine ⟨initializeCore_pc h, ?vector⟩
  case vector =>
    by_cases h1 : prg.length = 16384
    case pos =>
      rw [if_pos h1]
      exact ⟨(initializeCore_read_oneBank h h1 (i := 0x3FFC) (by decide)).2,
        (initializeCore_read_oneBank h h1 (i := 0x3FFD) (by decide)).2⟩
    case neg =>
      rw [if_neg h1]
      exact ⟨initializeCore_read_moreBanks h h1 (i := 0x7FFC) (by decide),
        initializeCore_read_moreBanks h h1 (i := 0x7FFD) (by decide)⟩

end Sys2Proof.Machine

/-! PROOF. The statements that decoding and encoding agree (30_encoding.md). The per-instruction facts of
Laws/PerInstr.lean are collected over all instructions; the other direction follows from what a decode can answer. -/

namespace Sys2Proof

/-- Every instruction is well-formed (30_encoding.md R91, R93, R98). -/
theorem Instr.wellFormed_eq_true : ∀ i : Instr, i.wellFormed = true
  | .jsr ea => Laws.WellFormed.jsr ea
  | .andIndX zp => Laws.WellFormed.andIndX zp
  | .jmp ea => Laws.WellFormed.jmp ea
  | .sei => Laws.WellFormed.sei
  | .dey => Laws.WellFormed.dey
  | .sta ea => Laws.WellFormed.sta ea
  | .txs => Laws.WellFormed.txs
  | .ldyImm imm => Laws.WellFormed.ldyImm imm
  | .ldxImm imm => Laws.WellFormed.ldxImm imm
  | .ldaImm imm => Laws.WellFormed.ldaImm imm
  | .ldaAbsX base => Laws.WellFormed.ldaAbsX base
  | .bne off => Laws.WellFormed.bne off
  | .inx => Laws.WellFormed.inx

/-- Decoding an encoding gives the instruction back, and the bytes behind it (30_encoding.md R90 to R93). -/
theorem decode_encode_append : ∀ i : Instr, Laws.RoundTrip.Statement i
  | .jsr ea => Laws.RoundTrip.jsr ea
  | .andIndX zp => Laws.RoundTrip.andIndX zp
  | .jmp ea => Laws.RoundTrip.jmp ea
  | .sei => Laws.RoundTrip.sei
  | .dey => Laws.RoundTrip.dey
  | .sta ea => Laws.RoundTrip.sta ea
  | .txs => Laws.RoundTrip.txs
  | .ldyImm imm => Laws.RoundTrip.ldyImm imm
  | .ldxImm imm => Laws.RoundTrip.ldxImm imm
  | .ldaImm imm => Laws.RoundTrip.ldaImm imm
  | .ldaAbsX base => Laws.RoundTrip.ldaAbsX base
  | .bne off => Laws.RoundTrip.bne off
  | .inx => Laws.RoundTrip.inx

/-! ### The statements -/

/-- Settles O3, instruction by instruction: a word operand comes back from its two bytes. -/
theorem decodeOfEncodeIsTheInstruction : Obligations.DecodeOfEncodeIsTheInstruction := fun i rest =>
  ⟨i.wellFormed_eq_true, decode_encode_append i rest⟩

/-- Settles O4, by the operand bytes of the row that decodes: a row builds instructions with its own opcode byte. -/
theorem decodedBytesAreTheEncoding : Obligations.DecodedBytesAreTheEncoding := by
  intro bytes i rest h
  obtain ⟨op, tail, row, rfl, hl, hbuild⟩ := decode_ok_cases h
  obtain ⟨hrow, rfl⟩ := lookup_some hl
  obtain ⟨hplain, hbyte, hword⟩ := row_build hrow
  obtain ⟨hb, rfl⟩ | ⟨f, b, hb, rfl, rfl⟩ | ⟨f, lo, hi, hb, rfl, rfl⟩ := hbuild
  case inl => rw [hplain i hb, List.singleton_append]
  case inr.inl =>
    rw [hbyte f hb b]
    rfl
  case inr.inr =>
    rw [hword f hb (wordOf hi lo), loByte_wordOf, hiByte_wordOf]
    rfl

/-- Settles O5: each word is decoded by evaluation of its bytes. -/
theorem sampleWordsDecode : Obligations.SampleWordsDecode := by
  unfold Obligations.SampleWordsDecode
  decide

end Sys2Proof

/-! PROOF. The statements about the invariant of the machine (10_state.md). The memories' part is exec's, the PPU's part
is the run's, and the fault record's part is the taking of a fault. -/

namespace Sys2Proof.Machine

section

variable {i : Instr} {s t : State}

/-- A faulting fetch raises UnknownOpcode of a byte that does not decode, or PortFetch of a port (60_exceptions.md
R260). -/
theorem fetchInstr_error_reachable {c : Cause} (h : fetchInstr s = .error c) :
    (∃ b, c = .unknownOpcode b s.pc ∧ decodeOpcode b = none) ∨ ∃ a, c = .portFetch a ∧ isPort a = true := by
  obtain ⟨hp, rfl⟩ | ⟨-, hl, rfl⟩ | ⟨hp, rfl⟩ | ⟨hp, rfl⟩ := fetchInstr_error h
  case inr.inl => exact .inl ⟨_, rfl, decodeOpcode_eq_none.mpr hl⟩
  all_goals exact .inr ⟨_, rfl, hp⟩

/-- The taking of a fault that a fetch raised keeps the invariant. -/
theorem raise_inv {c : Cause} (hs : s.Inv) (h : fetchInstr s = .error c) : (s.raise c).Inv where
  mem := hs.mem
  vram := hs.vram
  ppu := hs.ppu
  halted r hr := by
    cases hr
    exact ⟨rfl, fetchInstr_error_reachable h⟩

/-- A running state with both memories in canonical form and the PPU's part meets the invariant. -/
theorem inv_of_running (hr : s.Running) (hmem : s.mem.wf addressSpaceSize = true)
    (hvram : s.vram.wf vramSize = true) (hppu : s.ppu.Inv) : s.Inv :=
  ⟨hmem, hvram, hppu, fun r h => by rw [hr] at h; cases h⟩

/-- No instruction changes the PPU's own state or the fault record. -/
theorem exec_ppu_halted (h : exec i s = .next t) : t.ppu = s.ppu ∧ t.halted = s.halted := by
  obtain ⟨u, hu, hppu, hhalted⟩ := exec_next s i
  obtain rfl := Host.Outcome.next.inj (h.symm.trans hu)
  exact ⟨hppu, hhalted⟩

/-- An instruction that completes keeps the invariant. -/
theorem exec_inv (hs : s.Inv) (h : exec i s = .next t) (ht : t.Running) : t.Inv := by
  obtain ⟨hmem, hvram⟩ := exec_wf h hs.mem hs.vram
  obtain ⟨hppu, -⟩ := exec_ppu_halted h
  exact inv_of_running ht hmem hvram (hppu ▸ hs.ppu)

/-- PPU cycles of a running machine keep the invariant. -/
theorem runPpu_inv (n : Nat) (hs : s.Inv) (hr : s.Running) : (s.runPpu n).Inv :=
  inv_of_running hr hs.mem hs.vram (s.ppu.run_inv s.ppuView n hs.ppu)

/-- A state after power-on meets the invariant, if both its memories are in canonical form. -/
theorem powerOn_inv (init : InitValues) {mem vram : Memory} (hmem : mem.wf addressSpaceSize = true)
    (hvram : vram.wf vramSize = true) : (powerOn init mem vram).Inv :=
  inv_of_running rfl hmem hvram ⟨⟨⟨le_rfl, (by decide : (-1 : Int) ≤ 260)⟩, Nat.zero_le _⟩, nofun⟩

end

/-! ### The statements -/

/-- Settles O14, by what a step can do: it takes a fault, or runs an instruction and then PPU cycles. -/
theorem everyStepKeepsTheInvariant : Obligations.EveryStepKeepsTheInvariant := by
  intro s t hs h
  obtain ⟨-, ⟨c, hf, rfl⟩ | ⟨i, u, -, hu, hur, rfl⟩⟩ := step_next h
  case inl => exact raise_inv hs hf
  case inr => exact runPpu_inv _ (exec_inv hs hu hur) hur

/-- Settles O16: what is placed fits either memory, so both stay canonical. -/
theorem loadedCartridgeMeetsTheInvariant : Obligations.LoadedCartridgeMeetsTheInvariant := by
  intro init prg chr s hmem hvram h
  obtain ⟨hsize, hchr, rfl⟩ := initializeCore_ok h
  have hfit : 0x8000 + (prgImage prg).length ≤ addressSpaceSize := by
    rw [prgImage_length hsize]
    decide
  have hchrFit : 0 + chr.length ≤ vramSize := by
    unfold chrLimit at hchr
    unfold vramSize
    omega
  exact powerOn_inv init (Memory.wf_place hmem hfit) (Memory.wf_place hvram hchrFit)

/-- Settles O15: both memories are empty. -/
theorem resetMeetsTheInvariant : Obligations.ResetMeetsTheInvariant := powerOn_inv InitValues.zero rfl rfl

end Sys2Proof.Machine

/-! PROOF. The statements that two states differing in one part step alike (48_ppu_renderer.md R231, R232; 10_state.md
R29). One replacement covers the three parts they speak of: P but for Z, `fine_x` and the PPU's own state. First every
MemWrite as one record update; then that exec, the fetch and the step commute with the replacement; then the
statements. -/

namespace Sys2Proof.Machine

/-- The state with other values in the parts that no instruction reads: P (of which BNE reads Z alone), `fine_x` and
the PPU's own state. -/
def State.replace (s : State) (q : Byte) (f : BitVec 3) (p : Ppu) : State := { s with p := q, fineX := f, ppu := p }

/-- What an instruction may do to P: keep it, set I if it is SEI, or set N and Z if the table of 10_state.md R30 lets
it. -/
inductive StatusWrite (i : Instr) : (Byte → Byte) → Prop
  | keep : StatusWrite i id
  | setI (h : i = .sei) : StatusWrite i (setFlag · .i true)
  | setNZ (h : writesNZ i = true) (v : Byte) : StatusWrite i (setNZ · v)

section

variable {i : Instr} {s t : State}

/-! ### Writes of P -/

/-- No instruction writes C, V, D, B or bit 5 (10_state.md R29). -/
theorem StatusWrite.unused_bit {w : Byte → Byte} (h : StatusWrite i w) (p : Byte) {k : Nat}
    (hk : k ∈ [0, 3, 4, 5, 6]) : (w p).getLsbD k = p.getLsbD k := by
  have hbits : k ≠ 1 ∧ k ≠ 2 ∧ k ≠ 7 := by
    simp only [List.mem_cons, List.not_mem_nil, or_false] at hk
    omega
  obtain ⟨hz, hi, hn⟩ := hbits
  cases h with
  | keep => rfl
  | setI _ => exact setFlag_getLsbD_of_ne p true hi
  | setNZ _ v => exact (nzSet_setNZ v p).2.2 k hz hn

/-- Each bit of P is written alike whatever P was, or left alone whatever P was. -/
theorem StatusWrite.bit_alike_or_kept {w : Byte → Byte} (h : StatusWrite i w) (p q : Byte) (k : Nat) :
    (w q).getLsbD k = (w p).getLsbD k ∨ ((w q).getLsbD k = q.getLsbD k ∧ (w p).getLsbD k = p.getLsbD k) := by
  cases h with
  | keep => exact .inr ⟨rfl, rfl⟩
  | setI _ =>
    by_cases hi : k = Flag.bit .i
    · exact .inl (by rw [hi, setFlag_getLsbD_bit, setFlag_getLsbD_bit])
    · exact .inr ⟨setFlag_getLsbD_of_ne q true hi, setFlag_getLsbD_of_ne p true hi⟩
  | setNZ _ v =>
    obtain ⟨hqz, hqn, hq⟩ := nzSet_setNZ v q
    obtain ⟨hpz, hpn, hp⟩ := nzSet_setNZ v p
    by_cases hz : k = 1
    · exact .inl (by rw [hz, hqz, hpz])
    by_cases hn : k = 7
    · exact .inl (by rw [hn, hqn, hpn])
    exact .inr ⟨hq k hz hn, hp k hz hn⟩

/-! ### exec after a replacement -/

/-- All that a MemWrite changes, field by field (20_memory.md R61 to R67). -/
theorem State.memWrite_eq (s : State) (a : Word) (v : Byte) :
    s.memWrite a v =
      { s with
        mem := s.mem.write a.toNat v
        vram := if a = 0x2007#16 then s.vram.write s.vindex.toNat v else s.vram
        cur :=
          if a = 0x2006#16 ∧ s.toggle = true then setField s.tmp 0 8 v
          else if a = 0x2007#16 then s.cur + s.increment else s.cur
        tmp :=
          if a = 0x2000#16 then setField s.tmp 10 2 v
          else if a = 0x2005#16 then
            (if s.toggle then setField (setField s.tmp 12 3 v) 5 5 (v >>> 3) else setField s.tmp 0 5 (v >>> 3))
          else if a = 0x2006#16 then
            (if s.toggle then setField s.tmp 0 8 v else setField (setField s.tmp 8 6 v) 14 1 0#8)
          else s.tmp
        fineX := if a = 0x2005#16 ∧ s.toggle = false then v.setWidth 3 else s.fineX
        toggle := if a = 0x2005#16 ∨ a = 0x2006#16 then !s.toggle else s.toggle } := by
  unfold State.memWrite State.store
  rw [State.portWrite_eq, State.portWrite_vram, State.portWrite_cur, State.portWrite_tmp, State.portWrite_fineX,
    State.portWrite_toggle]

/-- An instruction does the same after a replacement that keeps Z: it writes P and `fine_x` in the same way, and keeps
the PPU's own state (10_state.md R29; 48_ppu_renderer.md R231, R232). -/
theorem exec_replace (h : exec i s = .next t) :
    ∃ (w : Byte → Byte) (g : BitVec 3 → BitVec 3), StatusWrite i w ∧ t.p = w s.p ∧ t.fineX = g s.fineX ∧
      ∀ q f p, q.getLsbD 1 = s.p.getLsbD 1 → exec i (s.replace q f p) = .next (t.replace (w q) (g f) p) := by
  cases i with
  | jsr ea =>
    rw [exec_jsr, State.push_eq, State.push_eq] at h
    cases h
    refine ⟨id, id, .keep, rfl, rfl, fun q f p _ => ?_⟩
    rw [exec_jsr, State.push_eq, State.push_eq]
    rfl
  | sta ea =>
    rw [exec_sta, State.memWrite_eq] at h
    cases h
    refine ⟨id, fun f => if ea = 0x2005#16 ∧ s.toggle = false then s.a.setWidth 3 else f, .keep, rfl, rfl,
      fun q f p _ => ?_⟩
    rw [exec_sta, State.memWrite_eq]
    rfl
  | andIndX zp =>
    rw [exec_andIndX, State.afterRead_eq] at h
    cases h
    refine ⟨_, id, .setNZ rfl _, rfl, rfl, fun q f p _ => ?_⟩
    rw [exec_andIndX, State.afterRead_eq]
    rfl
  | ldaAbsX base =>
    rw [exec_ldaAbsX, State.afterRead_eq] at h
    cases h
    refine ⟨_, id, .setNZ rfl _, rfl, rfl, fun q f p _ => ?_⟩
    rw [exec_ldaAbsX, State.afterRead_eq]
    rfl
  | bne off =>
    rw [exec_bne] at h
    cases h
    refine ⟨id, id, .keep, rfl, rfl, fun q f p hq => ?_⟩
    have hz : (s.replace q f p).flag .z = s.flag .z := hq
    rw [exec_bne, hz]
    rfl
  | sei =>
    cases h
    exact ⟨_, id, .setI rfl, rfl, rfl, fun _ _ _ _ => rfl⟩
  | inx | dey | ldaImm _ | ldxImm _ | ldyImm _ =>
    cases h
    exact ⟨_, id, .setNZ rfl _, rfl, rfl, fun _ _ _ _ => rfl⟩
  | jmp _ | txs =>
    cases h
    exact ⟨id, id, .keep, rfl, rfl, fun _ _ _ _ => rfl⟩

/-- An instruction writes P in one of the three ways. -/
theorem exec_statusWrite (h : exec i s = .next t) : ∃ w, StatusWrite i w ∧ t.p = w s.p := by
  obtain ⟨w, -, hw, hp, -⟩ := exec_replace h
  exact ⟨w, hw, hp⟩

/-! ### A step after a replacement -/

/-- A fetch reads PC and AddressSpace alone (20_memory.md R59). -/
theorem fetchInstr_replace (s : State) (q : Byte) (f : BitVec 3) (p : Ppu) :
    fetchInstr (s.replace q f p) = fetchInstr s := rfl

/-- A step that answers a next state does the same after `fine_x` and the PPU's own state are replaced, and each of the
two depends only on itself (48_ppu_renderer.md R231, R232). -/
theorem step_replace (h : step s = .next t) :
    ∃ (g : BitVec 3 → BitVec 3) (r : Ppu → Ppu), t.fineX = g s.fineX ∧ t.ppu = r s.ppu ∧
      ∀ f p, step (s.replace s.p f p) = .next (t.replace t.p (g f) (r p)) := by
  obtain ⟨hr, ⟨c, hf, rfl⟩ | ⟨i, u, hf, hu, hur, rfl⟩⟩ := step_next h
  case inl =>
    exact ⟨id, id, rfl, rfl, fun f p =>
      systemIteration_error (s.replace s.p f p) _ hr ((fetchInstr_replace s s.p f p).trans hf)⟩
  case inr =>
    obtain ⟨hppu, -⟩ := exec_ppu_halted hu
    obtain ⟨w, g, -, hp, hfine, hexec⟩ := exec_replace hu
    refine ⟨g, Ppu.run u.ppuView (ppuCyclesAfter Config.cpuCycles i s), hfine, congrArg (Ppu.run _ _) hppu,
      fun f p => ?_⟩
    obtain ⟨v, hv, -, hstep⟩ := systemIteration_ok (s.replace s.p f p) Config.cpuCycles hr
      ((fetchInstr_replace s s.p f p).trans hf)
    rw [hexec s.p f p rfl, ← hp] at hv
    obtain rfl := Host.Outcome.next.inj hv
    have hcycles : ppuCyclesAfter Config.cpuCycles i (s.replace s.p f p) = ppuCyclesAfter Config.cpuCycles i s := rfl
    rw [hcycles] at hstep
    exact hstep

/-- Only a halted state has no next state (60_exceptions.md R265). -/
theorem step_fault {r : Fault} (h : step s = .fault r) : ∃ record, s.halted = some record ∧ r = .halted record := by
  unfold step at h
  cases hh : s.halted with
  | some record =>
    rw [systemIteration_halted s _ hh] at h
    cases h
    exact ⟨record, rfl, rfl⟩
  | none =>
    cases hf : fetchInstr s with
    | error c =>
      rw [systemIteration_error s _ hh hf] at h
      cases h
    | ok i =>
      obtain ⟨_, _, _, e⟩ := systemIteration_ok s Config.cpuCycles hh hf
      rw [e] at h
      cases h

/-- A step that stops does so after any replacement, with the same record. -/
theorem step_replace_fault {r : Fault} (h : step s = .fault r) (q : Byte) (f : BitVec 3) (p : Ppu) :
    step (s.replace q f p) = .fault r := by
  obtain ⟨record, hh, rfl⟩ := step_fault h
  exact systemIteration_halted (s.replace q f p) _ hh

/-- A step keeps the bits of P that no instruction writes (10_state.md R29). -/
theorem step_unused_bit (h : step s = .next t) {k : Nat} (hk : k ∈ [0, 3, 4, 5, 6]) :
    t.p.getLsbD k = s.p.getLsbD k := by
  obtain ⟨-, ⟨c, -, rfl⟩ | ⟨i, u, -, hu, -, rfl⟩⟩ := step_next h
  case inl => rfl
  case inr =>
    obtain ⟨w, hw, hp⟩ := exec_statusWrite hu
    exact (congrArg (BitVec.getLsbD · k) hp).trans (hw.unused_bit s.p hk)

end

/-! ### The statements -/

/-- Settles O59: replace the PPU's own state alone. -/
theorem ppuIsInvisibleToTheCpu : Obligations.PpuIsInvisibleToTheCpu := by
  refine fun s p => ⟨fun t h => ?next, fun r h => step_replace_fault h s.p s.fineX p, fun n => ⟨_, rfl⟩⟩
  case next =>
    obtain ⟨g, r, hfine, -, hstep⟩ := step_replace h
    have e := hstep s.fineX p
    rw [← hfine] at e
    exact ⟨r p, e⟩

/-- Settles O60: replace `fine_x` alone. -/
theorem fineXHasNoEffect : Obligations.FineXHasNoEffect := by
  refine fun s f => ⟨fun t h => ?next, fun r h => step_replace_fault h s.p f s.ppu⟩
  case next =>
    obtain ⟨g, r, -, hppu, hstep⟩ := step_replace h
    have e := hstep f s.ppu
    rw [← hppu] at e
    exact ⟨g f, e⟩

/-- Settles O32: replace P alone, but for Z; the bits that no instruction writes are read off the three ways to write
P. -/
theorem unusedFlagsAreNeitherWrittenNorRead : Obligations.UnusedFlagsAreNeitherWrittenNorRead := by
  refine ⟨fun s t k h hk => step_unused_bit h hk, fun i s t k h hk => ?written, fun i s t q hq h => ?read⟩
  case written =>
    obtain ⟨w, hw, hp⟩ := exec_statusWrite h
    rw [hp, hw.unused_bit s.p hk]
  case read =>
    obtain ⟨hppu, -⟩ := exec_ppu_halted h
    obtain ⟨w, g, hw, hp, hfine, hexec⟩ := exec_replace h
    have ht : t.replace (w q) (g s.fineX) s.ppu = { t with p := w q } := by
      rw [State.replace, ← hfine, ← hppu]
    refine ⟨w q, (hexec q s.fineX s.ppu hq).trans (congrArg _ ht), fun k => ?_⟩
    rw [hp]
    exact hw.bit_alike_or_kept s.p q k

end Sys2Proof.Machine

/-! PROOF. The statements about the step and the fetch (40_pipeline_addressing.md; 60_exceptions.md R260 to R266, R278).
First the fetch of an instruction with a byte at a port, in byte order; then one theorem per statement. -/

namespace Sys2Proof.Machine

section

variable {s : State} {d : Decoded}

/-! ### Fetching at a port -/

/-- An opcode byte at a port raises PortFetch of PC (60_exceptions.md R266). -/
theorem fetchInstr_of_port (h : isPort s.pc = true) : fetchInstr s = .error (.portFetch s.pc) := by
  rw [fetchInstr, fetch_port s h]

/-- The row that a fetch uses, where its opcode byte is no port's and decodes: it takes its mode's operand bytes. -/
theorem exists_row_of_decodeOpcode {op : Byte} (h : decodeOpcode op = some d) :
    ∃ row, lookup op = some row ∧ resolverAccepts row.decoded.mode row.decoded.index = true ∧
      row.build.operandBytes = d.mode.operandBytes := by
  obtain ⟨row, hl, rfl⟩ := decodeOpcode_eq_some.mp h
  obtain ⟨hrow, -⟩ := lookup_some hl
  exact ⟨row, hl, resolverAccepts_of_row hrow, row_operandBytes hrow⟩

/-- The first operand byte at a port raises PortFetch of its address (60_exceptions.md R266). -/
theorem fetchInstr_of_port_first (h0 : isPort s.pc = false) (hd : decodeOpcode (s.load s.pc) = some d)
    (hn : 1 ≤ d.mode.operandBytes) (h1 : isPort (s.pc + 1#16) = true) :
    fetchInstr s = .error (.portFetch (s.pc + 1#16)) := by
  obtain ⟨row, hl, hok, hbytes⟩ := exists_row_of_decodeOpcode hd
  unfold fetchInstr
  cases hb : row.build with
  | plain i =>
    simp [← hbytes, hb, Builder.operandBytes] at hn
  | ofByte f => simp [fetch_plain s h0, hl, hok, hb, fetch_port s h1]
  | ofWord f => simp [fetch_plain s h0, hl, hok, hb, fetch_port s h1]

/-- The second operand byte at a port raises PortFetch of its address (60_exceptions.md R266). -/
theorem fetchInstr_of_port_second (h0 : isPort s.pc = false) (hd : decodeOpcode (s.load s.pc) = some d)
    (hn : 2 ≤ d.mode.operandBytes) (h1 : isPort (s.pc + 1#16) = false) (h2 : isPort (s.pc + 2#16) = true) :
    fetchInstr s = .error (.portFetch (s.pc + 2#16)) := by
  obtain ⟨row, hl, hok, hbytes⟩ := exists_row_of_decodeOpcode hd
  unfold fetchInstr
  cases hb : row.build with
  | plain i =>
    simp [← hbytes, hb, Builder.operandBytes] at hn
  | ofByte f =>
    simp [← hbytes, hb, Builder.operandBytes] at hn
  | ofWord f => simp [fetch_plain s h0, hl, hok, hb, fetch_plain s h1, fetch_port s h2]

/-- A step of a running machine whose fetch raises a fault sets `halted` to its record and nothing else
(60_exceptions.md R264). -/
theorem step_of_fetchInstr_error {c : Cause} (hr : s.Running) (h : fetchInstr s = .error c) :
    step s = .next { s with halted := some ⟨c, s.registers⟩ } :=
  systemIteration_error s Config.cpuCycles hr h

end

/-! ### The arguments of CPU_CYCLES -/

/-- The page of an address is its number divided by 256. -/
theorem hiByte_ne_iff (v w : Word) : (hiByte v != hiByte w) = true ↔ v.toNat / 256 ≠ w.toNat / 256 := by
  have page (u : Word) : (hiByte u).toNat = u.toNat / 256 := by
    have := u.isLt
    rw [hiByte, BitVec.extractLsb'_toNat, Nat.shiftRight_eq_div_pow]
    omega
  rw [bne_iff_ne, ne_eq, ← BitVec.toNat_inj, page, page]

/-- The target of a branch from the address after its offset byte (40_pipeline_addressing.md R117). -/
theorem branchTarget_eq (pc : Word) (off : Byte) : branchTarget (pc + 1#16) off = pc + 2#16 + off.signExtend 16 := by
  rw [← pc_advance pc 1 1]
  rfl

/-- `taken` is a BNE with Z clear (60_exceptions.md R278). -/
theorem taken_iff (i : Instr) (s : State) : taken i s = true ↔ ∃ off, i = .bne off ∧ s.p.getLsbD 1 = false := by
  cases i with
  | bne off => simp [taken, State.flag, Flag.bit]
  | _ => simp [taken]

/-- `crossed` is a target in another page than its base, of LDA abs,X or of a branch (60_exceptions.md R278). -/
theorem crossed_iff (i : Instr) (s : State) :
    crossed i s = true ↔
      (∃ base, i = .ldaAbsX base ∧ (base + s.x.setWidth 16).toNat / 256 ≠ base.toNat / 256) ∨
      (∃ off, i = .bne off ∧
        (s.pc + 2#16 + off.signExtend 16).toNat / 256 ≠ (s.pc + 2#16).toNat / 256) := by
  cases i with
  | ldaAbsX base =>
    rw [crossed, hiByte_ne_iff]
    simp [State.absoluteX, zext16]
  | bne off =>
    rw [crossed, hiByte_ne_iff, branchTarget_eq]
    simp
  | _ => simp [crossed]

/-! ### The statements -/

/-- Settles O9: the fetch raises PortFetch of the first of its bytes that is at a port. -/
theorem portFetchHalts : Obligations.PortFetchHalts := fun _ hr =>
  ⟨fun h => step_of_fetchInstr_error hr (fetchInstr_of_port h),
    fun _ h0 hd =>
      ⟨fun hn h1 => step_of_fetchInstr_error hr (fetchInstr_of_port_first h0 hd hn h1),
        fun hn h1 h2 => step_of_fetchInstr_error hr (fetchInstr_of_port_second h0 hd hn h1 h2)⟩⟩

/-- Settles O12, by what the fetch answers. -/
theorem stepsWithoutAFaultComplete : Obligations.StepsWithoutAFaultComplete := by
  intro s hr
  cases hf : fetchInstr s with
  | ok i =>
    obtain ⟨t, -, ht, hstep⟩ := systemIteration_ok s Config.cpuCycles hr hf
    exact .inl ⟨i, _, rfl, hstep, (State.runPpu_halted t _).trans ht⟩
  | error c => exact .inr ⟨c, _, rfl, step_of_fetchInstr_error hr hf, rfl⟩

/-- Settles O13, by the four ways the fetch of the faulting step can fault. -/
theorem onlyTwoFaultCausesAreReachable : Obligations.OnlyTwoFaultCausesAreReachable := by
  intro s t r _ h ht
  obtain ⟨c, hf, rfl, rfl⟩ := step_next_halted h ht
  obtain ⟨hp, rfl⟩ | ⟨hp, hl, rfl⟩ | ⟨hp, rfl⟩ | ⟨hp, rfl⟩ := fetchInstr_error hf
  case inl => exact .inr ⟨0, by decide, by rw [BitVec.add_zero], by rwa [BitVec.add_zero]⟩
  case inr.inl => exact .inl ⟨rfl, decodeOpcode_eq_none.mpr hl, hp⟩
  case inr.inr.inl => exact .inr ⟨1, by decide, rfl, hp⟩
  case inr.inr.inr => exact .inr ⟨2, by decide, rfl, hp⟩

/-- Settles O6: the fetch reads what the decoder reads, and a step runs what it fetched. -/
theorem stepRunsTheDecodedInstruction : Obligations.StepRunsTheDecodedInstruction := fun s _ _ hr hd hf =>
  systemIteration_ok s Config.cpuCycles hr (fetchInstr_of_decode hd hf)

/-- Settles O7, by the two instructions that the arguments concern; both arguments are false for every other. -/
theorem cycleArgumentsOfEveryInstruction : Obligations.CycleArgumentsOfEveryInstruction := fun i s =>
  ⟨taken_iff i s, crossed_iff i s⟩

/-- Settles O10: a halted machine has no step. -/
theorem haltedMachineHasNoStep : Obligations.HaltedMachineHasNoStep := fun s _ h =>
  systemIteration_halted s Config.cpuCycles h

end Sys2Proof.Machine

/-! PROOF. The frames over all instructions (10_state.md R30; 40_pipeline_addressing.md R119; 20_memory.md section 4).
First the registers, column by column of the access table; then what an instruction can do outside the registers, which
is one store, one read or neither; then the statements. -/

namespace Sys2Proof.Machine

section

variable {i : Instr} {s t : State}

/-! ### The registers -/

/-- A register changes only by the instructions that the access table lets write it (10_state.md R30). -/
theorem exec_register_columns (h : exec i s = .next t) :
    (writesA i = false → t.a = s.a) ∧ (writesX i = false → t.x = s.x) ∧ (writesY i = false → t.y = s.y) ∧
    (writesSp i = false → t.sp = s.sp) ∧ (writesPc i = false → t.pc = s.pcAfter i) := by
  cases i
  all_goals
    simp only [exec_jsr, exec_andIndX, exec_jmp, exec_sei, exec_dey, exec_sta, exec_txs, exec_ldyImm, exec_ldxImm,
      exec_ldaImm, exec_ldaAbsX, exec_bne, exec_inx, Host.Outcome.next.injEq] at h
    subst h
  all_goals simp [writesA, writesX, writesY, writesSp, writesPc, State.pcAfter, Instr.length, encode]

/-- N and Z change only by the instructions that the access table lets write them (10_state.md R30). -/
theorem StatusWrite.nz_kept {w : Byte → Byte} (h : StatusWrite i w) (hi : writesNZ i = false) (p : Byte) :
    (w p).getLsbD 1 = p.getLsbD 1 ∧ (w p).getLsbD 7 = p.getLsbD 7 := by
  cases h with
  | keep => exact ⟨rfl, rfl⟩
  | setI _ => exact ⟨setFlag_getLsbD_of_ne p true (by decide), setFlag_getLsbD_of_ne p true (by decide)⟩
  | setNZ hw _ => exact absurd hw (by simp [hi])

/-- I changes only by SEI (10_state.md R30). -/
theorem StatusWrite.i_kept {w : Byte → Byte} (h : StatusWrite i w) (hi : writesI i = false) (p : Byte) :
    (w p).getLsbD 2 = p.getLsbD 2 := by
  cases h with
  | keep => rfl
  | setI hsei =>
    subst hsei
    cases hi
  | setNZ _ v => exact (nzSet_setNZ v p).2.2 2 (by decide) (by decide)

/-! ### Outside the registers -/

/-- All that an instruction can do outside the CPU registers: STA's one MemWrite, one MemRead with its port effect, or
nothing but JSR's two stack bytes (40_pipeline_addressing.md R119). -/
theorem exec_access_cases (h : exec i s = .next t) :
    (∃ ea, i = .sta ea ∧ t = (s.memWrite ea s.a).setPc (s.pc + 3#16)) ∨
    (∃ ea, readsValueAt i s = some ea ∧ ReadsByte s ea (s.readByte ea) t) ∨
    ((∀ a, a ∉ storesTo i s → t.load a = s.load a) ∧ SameVRam s t ∧ SameScroll s t) := by
  cases i
  all_goals
    simp only [exec_jsr, exec_andIndX, exec_jmp, exec_sei, exec_dey, exec_sta, exec_txs, exec_ldyImm, exec_ldxImm,
      exec_ldaImm, exec_ldaAbsX, exec_bne, exec_inx, Host.Outcome.next.injEq] at h
    subst h
  case sta ea => exact .inl ⟨ea, rfl, rfl⟩
  case andIndX zp => exact .inr (.inl ⟨_, rfl, (memRead_readsByte s (s.pointer zp)).update _ _ _ _ _ _⟩)
  case ldaAbsX base => exact .inr (.inl ⟨_, rfl, (memRead_readsByte s (s.absoluteX base)).update _ _ _ _ _ _⟩)
  case jsr ea =>
    refine .inr (.inr ⟨fun a ha => ?_, State.vload_congr (by simp), by simp [SameScroll]⟩)
    obtain ⟨h1, h2⟩ : a ≠ s.stackAddress ∧ a ≠ 0x0100#16 + zext16 (s.sp - 1#8) := by
      simpa [storesTo, State.stackAddress] using ha
    exact (State.load_congr (State.setPc_mem _ ea) a).trans (State.load_push_push_other s _ _ h1 h2)
  all_goals exact .inr (.inr ⟨fun _ _ => rfl, fun _ => rfl, rfl, rfl, rfl, rfl⟩)

/-- AddressSpace changes only at the instruction's own store addresses. -/
theorem exec_load (h : exec i s = .next t) {a : Word} (ha : a ∉ storesTo i s) : t.load a = s.load a := by
  obtain ⟨ea, rfl, rfl⟩ | ⟨ea, -, -, -, -, -, -, hmem, -⟩ | ⟨hmem, -⟩ := exec_access_cases h
  case inl =>
    have hea : a ≠ ea := by simpa [storesTo] using ha
    rw [State.load_congr (State.setPc_mem _ _), State.load_memWrite, if_neg hea]
  case inr.inl => exact hmem a
  case inr.inr => exact hmem a ha

/-- VRam changes only at `cur & 0x3FFF` and only by a store to 0x2007 (20_memory.md R67). -/
theorem exec_vload (h : exec i s = .next t) {a : VIndex} (ha : i ≠ .sta 0x2007#16 ∨ a ≠ s.vindex) :
    t.vload a = s.vload a := by
  obtain ⟨ea, rfl, rfl⟩ | ⟨ea, -, -, -, -, -, -, -, hvram, -⟩ | ⟨-, hvram, -⟩ := exec_access_cases h
  case inl =>
    rw [State.vload_congr (State.setPc_vram _ _)]
    by_cases hea : ea = 0x2007#16
    · subst hea
      have hne : a.toNat ≠ s.vindex.toNat := fun e => ha.elim (· rfl) (· (BitVec.eq_of_toNat_eq e))
      rw [State.vload, State.memWrite2007_vram, ← vindex_toNat, Memory.read_write_other _ _ hne, State.vload]
    · exact memWrite_sameVRam s hea s.a a
  case inr.inl => exact hvram a
  case inr.inr => exact hvram a

/-- `cur` changes only by the second 0x2006 write and by accesses to 0x2007 (70_reset_and_hazards.md R302). -/
theorem exec_cur (h : exec i s = .next t) (h6 : ¬ (i = .sta 0x2006#16 ∧ s.toggle = true)) (h7 : i ≠ .sta 0x2007#16)
    (hread : readsValueAt i s ≠ some 0x2007#16) : t.cur = s.cur := by
  obtain ⟨ea, rfl, rfl⟩ | ⟨ea, hr, -, -, hcur, -⟩ | ⟨-, -, hcur, -⟩ := exec_access_cases h
  case inl =>
    rw [Instr.sta.injEq] at h6
    rw [ne_eq, Instr.sta.injEq] at h7
    rw [State.setPc_cur, State.memWrite_cur, State.portWrite_cur, if_neg h6, if_neg h7]
  case inr.inl => rw [hcur, if_neg fun e => hread (hr.trans (congrArg some e))]
  case inr.inr => exact hcur

/-- `tmp` changes only by a store to 0x2000, 0x2005 or 0x2006 (20_memory.md R63, R65, R66). -/
theorem exec_tmp (h : exec i s = .next t) (h0 : i ≠ .sta 0x2000#16) (h5 : i ≠ .sta 0x2005#16)
    (h6 : i ≠ .sta 0x2006#16) : t.tmp = s.tmp := by
  obtain ⟨ea, rfl, rfl⟩ | ⟨ea, -, -, -, -, htmp, -⟩ | ⟨-, -, -, htmp, -⟩ := exec_access_cases h
  case inl =>
    rw [ne_eq, Instr.sta.injEq] at h0 h5 h6
    rw [State.setPc_tmp, State.memWrite_tmp, State.portWrite_tmp, if_neg h0, if_neg h5, if_neg h6]
  case inr.inl => exact htmp
  case inr.inr => exact htmp

/-- `fine_x` changes only by a store to 0x2005 (20_memory.md R65). -/
theorem exec_fineX (h : exec i s = .next t) (h5 : i ≠ .sta 0x2005#16) : t.fineX = s.fineX := by
  obtain ⟨ea, rfl, rfl⟩ | ⟨ea, -, -, -, -, -, hfine, -⟩ | ⟨-, -, -, -, hfine, -⟩ := exec_access_cases h
  case inl =>
    rw [ne_eq, Instr.sta.injEq] at h5
    rw [State.setPc_fineX, State.memWrite_fineX, State.portWrite_fineX, if_neg fun e => h5 e.1]
  case inr.inl => exact hfine
  case inr.inr => exact hfine

/-- The toggle changes only by a store to a pair port or a value read at 0x2002 (20_memory.md R64 to R66). -/
theorem exec_toggle (h : exec i s = .next t) (h5 : i ≠ .sta 0x2005#16) (h6 : i ≠ .sta 0x2006#16)
    (hread : readsValueAt i s ≠ some 0x2002#16) : t.toggle = s.toggle := by
  obtain ⟨ea, rfl, rfl⟩ | ⟨ea, hr, -, htoggle, -⟩ | ⟨-, -, -, -, -, htoggle⟩ := exec_access_cases h
  case inl =>
    rw [ne_eq, Instr.sta.injEq] at h5 h6
    rw [State.setPc_toggle, State.memWrite_toggle, State.portWrite_toggle, if_neg (not_or.mpr ⟨h5, h6⟩)]
  case inr.inl => rw [htoggle, if_neg fun e => hread (hr.trans (congrArg some e))]
  case inr.inr => exact htoggle

end

/-! ### The statements -/

/-- Settles O28: the registers column by column, and the flags by the three ways to write P. -/
theorem registerWritesFollowTheAccessTable : Obligations.RegisterWritesFollowTheAccessTable := by
  intro i s t h
  obtain ⟨ha, hx, hy, hsp, hpc⟩ := exec_register_columns h
  obtain ⟨w, hw, hp⟩ := exec_statusWrite h
  refine ⟨ha, hx, hy, hsp, hpc, fun hi => ?nz, fun hi => ?i⟩
  case nz => rw [hp]; exact hw.nz_kept hi s.p
  case i => rw [hp]; exact hw.i_kept hi s.p

/-- Settles O29, by the three ways to reach memory. -/
theorem onlyStoresChangeAddressSpace : Obligations.OnlyStoresChangeAddressSpace := fun _ _ _ h _ ha => exec_load h ha

/-- Settles O30, one lemma per clause. -/
theorem onlyPortAccessesReachThePpuSide : Obligations.OnlyPortAccessesReachThePpuSide := fun _ _ _ h =>
  ⟨fun _ ha => exec_vload h ha, exec_cur h, exec_tmp h, exec_fineX h, exec_toggle h, exec_ppu_halted h⟩

/-- Settles O31: where none of the three accesses is made, `cur` is as before. -/
theorem curChangesOnlyBySecondAddressWriteOrDataPort : Obligations.CurChangesOnlyBySecondAddressWriteOrDataPort := by
  intro i s t h hne
  by_contra hnone
  obtain ⟨h6, hdata⟩ := not_or.mp hnone
  obtain ⟨h7, hread⟩ := not_or.mp hdata
  exact hne (exec_cur h h6 h7 hread)

end Sys2Proof.Machine

/-! PROOF. The statements about rows of accesses (20_memory.md R67, R72, R73): bytes written in a row to the data port,
a push, and a pull after it. -/

namespace Sys2Proof.Machine

section

variable (s : State)

/-! ### Bytes in a row to the data port -/

/-- A write to 0x2007 keeps `ctrl`, so a row of writes has one increment (20_memory.md R67). -/
theorem State.memWrite2007_ctrl (v : Byte) : (s.memWrite 0x2007#16 v).ctrl = s.ctrl := by
  rw [State.ctrl, State.load_memWrite, if_neg (by decide), State.ctrl]

/-- With bit 2 of `ctrl` clear a write to 0x2007 moves `cur` by one (20_memory.md R67). -/
theorem State.memWrite2007_cur (v : Byte) (h : s.ctrl.getLsbD 2 = false) :
    (s.memWrite 0x2007#16 v).cur = s.cur + 1#15 := by
  rw [State.memWrite_cur, State.portWrite_cur, if_neg (by simp), if_pos rfl, State.increment, h,
    if_neg Bool.false_ne_true]

/-- A row of writes to 0x2007, by its last byte: no byte before it is at the last one's index while VRam is not yet
full, and `ctrl` stays as it was. -/
theorem dataPort_fill {vs : List Byte} (hlen : vs.length ≤ 0x4000) (h : s.ctrl.getLsbD 2 = false) :
    let t := vs.foldl (fun u v => u.memWrite 0x2007#16 v) s
    t.ctrl = s.ctrl ∧ t.cur = s.cur + BitVec.ofNat 15 vs.length ∧
      ∀ k, (hk : k < vs.length) → t.vram.read ((s.cur.toNat + k) % 0x4000) = vs[k] := by
  induction vs using List.reverseRecOn with
  | nil => exact ⟨rfl, (BitVec.add_zero s.cur).symm, nofun⟩
  | append_singleton vs v ih =>
    rw [List.length_append, List.length_singleton] at hlen
    obtain ⟨hctrl, hcur, hread⟩ := ih (by omega)
    rw [List.foldl_append]
    generalize vs.foldl (fun u v => u.memWrite 0x2007#16 v) s = t at hctrl hcur hread ⊢
    have hindex : t.cur.toNat % 0x4000 = (s.cur.toNat + vs.length) % 0x4000 := by
      rw [hcur, BitVec.toNat_add, BitVec.toNat_ofNat]
      omega
    refine ⟨(t.memWrite2007_ctrl v).trans hctrl, ?cur, fun k hk => ?read⟩
    case cur =>
      rw [List.length_append, List.length_singleton, BitVec.ofNat_add, ← BitVec.add_assoc, ← hcur]
      exact t.memWrite2007_cur v (hctrl ▸ h)
    case read =>
      rw [List.length_append, List.length_singleton] at hk
      change (t.memWrite 0x2007#16 v).vram.read _ = _
      rw [State.memWrite2007_vram, hindex]
      by_cases hlast : k = vs.length
      · subst hlast
        rw [Memory.read_write_same, List.getElem_concat_length rfl]
      · rw [Memory.read_write_other _ _ (by omega), hread k (by omega), List.getElem_append_left]

/-! ### The stack -/

/-- SP going down by one, as a number modulo 256 (20_memory.md R72). -/
theorem State.push_sp_toNat (v : Byte) : (s.push v).sp.toNat = (s.sp.toNat + 255) % 256 := by
  rw [State.push_sp, BitVec.toNat_sub, Nat.add_comm]
  rfl

/-- All that a pull does: SP goes up by one, and the byte there is read with no side effect (20_memory.md R73). -/
theorem State.pull_eq : s.pull = (s.load (s.setSp (s.sp + 1#8)).stackAddress, s.setSp (s.sp + 1#8)) :=
  State.memRead_of_not_isPort (s.setSp (s.sp + 1#8)) (isPort_stackAddress _)

/-- SP goes up again to where it was before a push. -/
theorem State.push_sp_add_one (v : Byte) : (s.push v).sp + 1#8 = s.sp := by
  rw [State.push_sp, BitVec.sub_add_cancel]

end

/-! ### The statements -/

/-- Settles O41, by induction on the row of bytes from its end. -/
theorem dataPortFillsConsecutiveVRam : Obligations.DataPortFillsConsecutiveVRam := by
  intro vs s hlen h
  obtain ⟨-, hcur, hread⟩ := dataPort_fill s hlen h
  exact ⟨hcur, hread⟩

/-- Settles O43: a push is one plain store at the old stack address and one write of SP. -/
theorem pushWritesThenDecrements : Obligations.PushWritesThenDecrements := by
  intro s v t
  refine ⟨?same, fun b hb => ?other, s.push_sp_toNat v, s.push_a v, s.push_x v, s.push_y v, s.push_p v, s.push_pc v,
    State.vload_congr (s.push_vram v), ⟨s.push_cur v, s.push_tmp v, s.push_fineX v, s.push_toggle v⟩, s.push_ppu v,
    s.push_halted v⟩
  case same => exact (s.load_push v _).trans (if_pos rfl)
  case other => exact (s.load_push v b).trans (if_neg hb)

/-- Settles O44: the pull reads at the stack address before the push, which the push wrote. -/
theorem pullUndoesPush : Obligations.PullUndoesPush := by
  intro s v
  rw [State.pull_eq, State.push_sp_add_one]
  have haddress : ((s.push v).setSp s.sp).stackAddress = s.stackAddress := rfl
  refine ⟨?byte, ?registers⟩
  case byte => rw [haddress, State.load_push, if_pos rfl]
  case registers => simp [State.registers]

end Sys2Proof.Machine

/-! PROOF. The statements about the load contract's errors, the power-on table and the blank cartridge
(70_reset_and_hazards.md R290; 10_state.md R41). -/

namespace Sys2Proof.Machine

section

variable {init : InitValues} {prg chr : List Byte} {s : State}

/-! ### What a load answers -/

theorem initializeCore_of_bad_prg (h : prg.length = 0 ∨ prg.length % 16384 ≠ 0) :
    initializeCore init prg chr = .error .prgSize := if_pos h

theorem initializeCore_of_bad_chr (h : ¬ (prg.length = 0 ∨ prg.length % 16384 ≠ 0)) (hc : 8192 < chr.length) :
    initializeCore init prg chr = .error .chrSize := (if_neg h).trans (if_pos hc)

theorem initializeCore_of_good (h : ¬ (prg.length = 0 ∨ prg.length % 16384 ≠ 0)) (hc : chr.length ≤ 8192) :
    initializeCore init prg chr =
      .ok (powerOn init (init.mem.place 0x8000 (prgImage prg)) (init.vram.place 0 chr)) :=
  (if_neg h).trans (if_neg (Nat.not_lt.mpr hc))

/-! ### The power-on table -/

/-- A loaded state is the power-on state over its two memories: INIT_* and the fixed values of 10_state.md R41. -/
theorem initializeCore_powerOn (h : initializeCore init prg chr = .ok s) : s = powerOn init s.mem s.vram := by
  obtain ⟨-, -, rfl⟩ := initializeCore_ok h
  rfl

/-- AddressSpace from 0x8000 on is PRG twice if it is one bank, else the start of PRG (70_reset_and_hazards.md R291). -/
theorem initializeCore_read_prg (h : initializeCore init prg chr = .ok s) {i : Nat} (hi : i < 0x8000) :
    (if prg.length = 16384 then prg ++ prg else prg)[i]? = some (s.mem.read (0x8000 + i)) := by
  by_cases h1 : prg.length = 16384
  · have himage : prgImage prg = prg ++ prg := if_pos (by rw [h1, bankSize])
    rw [if_pos h1, ← himage, initializeCore_read_image h hi]
  · rw [if_neg h1, initializeCore_read_moreBanks h h1 hi]

/-! ### The blank cartridge -/

/-- Placing zero bytes in an empty memory lists no cell. -/
theorem Memory.place_replicate (base n : Nat) :
    Memory.place [] base (List.replicate n Config.unlistedByte) = [] := by
  unfold Memory.place
  rw [Memory.ofBytes_replicate]
  rfl

/-- The image of one zero bank is zero bytes. -/
theorem prgImage_replicate (v : Byte) : prgImage (List.replicate 16384 v) = List.replicate (16384 + 16384) v := by
  have h1 : (List.replicate 16384 v).length / bankSize = 1 := by rw [List.length_replicate, bankSize]
  rw [prgImage, if_pos h1, List.replicate_append_replicate]

end

/-! ### The statements -/

/-- Settles O45, by the two size checks in their order. -/
theorem loadErrorsAreExactlyTheBadSizes : Obligations.LoadErrorsAreExactlyTheBadSizes := by
  intro init prg chr
  by_cases hp : prg.length = 0 ∨ prg.length % 16384 ≠ 0
  case pos =>
    rw [initializeCore_of_bad_prg hp]
    exact ⟨⟨fun _ => hp, fun _ => rfl⟩, ⟨nofun, fun e => absurd hp e.1⟩, fun e => absurd hp e⟩
  by_cases hc : chr.length ≤ 8192
  case pos =>
    rw [initializeCore_of_good hp hc]
    exact ⟨⟨nofun, fun e => absurd e hp⟩, ⟨nofun, fun e => absurd hc (Nat.not_le.mpr e.2)⟩, fun _ _ => ⟨_, rfl⟩⟩
  case neg =>
    have hlt := Nat.lt_of_not_le hc
    rw [initializeCore_of_bad_chr hp hlt]
    exact ⟨⟨nofun, fun e => absurd e hp⟩, ⟨fun _ => ⟨hp, hlt⟩, fun _ => rfl⟩, fun _ e => absurd e hc⟩

/-- Settles O49: the registers are the power-on state's, PC is the vector, and each memory is the cartridge's part over
INIT_MEM and INIT_VRAM. -/
theorem powerOnValuesFollowTheTable : Obligations.PowerOnValuesFollowTheTable := by
  intro init prg chr s h
  refine ⟨?_, ?_, ?_, ?_, ?_, ?_, ?_, ?_, ?_, ?_, ?_, ?_, ?_, ?_, ?_, ?_, initializeCore_pc h,
    fun i hi => initializeCore_read_prg h hi, fun a ha => initializeCore_read_below h ha,
    fun i hi => initializeCore_read_chr h hi, fun i hi => initializeCore_read_behind_chr h hi⟩
  all_goals
    rw [initializeCore_powerOn h]
    rfl

/-- Settles O50: zero bytes list no cell in either memory. -/
theorem resetIsTheBlankCartridge : Obligations.ResetIsTheBlankCartridge := by
  unfold Obligations.ResetIsTheBlankCartridge
  have hlen : (List.replicate 16384 0#8).length = 16384 := List.length_replicate
  have hmem : InitValues.zero.mem.place 0x8000 (prgImage (List.replicate 16384 0#8)) = [] := by
    rw [prgImage_replicate]
    exact Memory.place_replicate 0x8000 (16384 + 16384)
  have hload := initializeCore_of_good (init := InitValues.zero) (prg := List.replicate 16384 0#8) (chr := [])
    (by rw [hlen]; decide) (by decide)
  rw [hload, hmem]
  rfl

end Sys2Proof.Machine

/-! PROOF. The whole-picture statements about the PPU renderer (48_ppu_renderer.md R222): a scanline's prefetch, then its
pixels slot by slot. -/

namespace Sys2Proof.Machine

/-- What the PPU holds when the first cycle of slot `m` of line `y` begins (48_ppu_renderer.md R222): slot m above slot
m + 1 in the shifters, slot m's `attr_byte` in the latch. -/
structure Ppu.HoldsSlots (v : PpuView) (y m : Nat) (p : Ppu) : Prop where
  scanline : p.scanline = y
  cycle    : p.cycle = 8 * m + 1
  hi       : hiByte p.patHi = v.tileHi m y
  hiNext   : loByte p.patHi = v.tileHi (m + 1) y
  lo       : hiByte p.patLo = v.tileLo m y
  loNext   : loByte p.patLo = v.tileLo (m + 1) y
  attr     : p.attrLatch = v.attrByte m y

/-- `p` after the first `j` pixels of slot `m` of line `y`, before any reload: shifted by `j`, with those pixels of the
picture emitted. -/
def Ppu.afterPixels (v : PpuView) (y m j : Nat) (p : Ppu) : Ppu :=
  { p with
    cycle := 8 * m + 1 + j
    patHi := p.patHi <<< j
    patLo := p.patLo <<< j
    pixels := p.pixels ++ (List.range j).map fun k => v.pixelAt (8 * m + k) y }

section

variable (v : PpuView) {p : Ppu} {y m : Nat}

/-! ### The shift registers -/

/-- After `j` shifts the top bit is bit 7 - j of what was the high byte. -/
theorem getLsbD_top_shiftLeft (r : BitVec 16) {j : Nat} (hj : j < 8) :
    (r <<< j).getLsbD 15 = (hiByte r).getLsbD (7 - j) := by
  have h15 : ¬ 15 < j := by omega
  have h8 : 7 - j < 8 := by omega
  have hbit : 8 + (7 - j) = 15 - j := by omega
  rw [BitVec.getLsbD_shiftLeft, hiByte_getLsbD, hbit]
  simp [h15, h8]

/-- Eight shifts move the low byte to the high byte. -/
theorem hiByte_shiftLeft_eight (r : BitVec 16) : hiByte (r <<< 8) = loByte r := by
  apply BitVec.eq_of_getLsbD_eq
  intro i hi
  have h16 : 8 + i < 16 := by omega
  rw [hiByte_getLsbD, loByte_getLsbD, BitVec.getLsbD_shiftLeft, Nat.add_sub_cancel_left]
  simp [h16]

/-! ### The prefetch -/

/-- Cycles from 257 on but 328, 336 and 340 only count (48_ppu_renderer.md R213, R230). -/
theorem Ppu.run_idle (p : Ppu) {n : Nat} (hc : 257 ≤ p.cycle)
    (h : ∀ k, k < n → p.cycle + k ≠ 328 ∧ p.cycle + k ≠ 336 ∧ p.cycle + k ≠ 340) :
    Ppu.run v n p = { p with cycle := p.cycle + n } := by
  induction n with
  | zero => rfl
  | succ n ih =>
    obtain ⟨h328, h336, h340⟩ := h n (Nat.lt_succ_self n)
    rw [Ppu.run_succ_last, ih fun k hk => h k (Nat.lt_succ_of_lt hk)]
    exact Ppu.step_idle v _ h328 h336 (.inr (.inl (by simp only; omega))) h340

/-- From cycle 321 to cycle 329 slot 0 of the next row is loaded (48_ppu_renderer.md R229). -/
theorem Ppu.run_prefetch_first (hs : p.scanline + 1 = y) (hy : y ≤ 239) (hc : p.cycle = 321) :
    Ppu.run v 8 p = { p.prefetchFirst v y with cycle := 329 } := by
  have hrow : (p.scanline + 1).toNat = y := by omega
  rw [Ppu.run_succ_last, p.run_idle v (by omega) (by omega), hc,
    Ppu.step_prefetch v _ (by simp only; omega) (by simp) (by simp), Ppu.prefetch_first v _ rfl, ← hrow]
  rfl

/-- From cycle 329 to cycle 337 slot 1 of the next row is loaded (48_ppu_renderer.md R229). -/
theorem Ppu.run_prefetch_second (hs : p.scanline + 1 = y) (hy : y ≤ 239) (hc : p.cycle = 329) :
    Ppu.run v 8 p = { p.prefetchSecond v y with cycle := 337 } := by
  have hrow : (p.scanline + 1).toNat = y := by omega
  rw [Ppu.run_succ_last, p.run_idle v (by omega) (by omega), hc,
    Ppu.step_prefetch v _ (by simp only; omega) (by simp) (by simp), Ppu.prefetch_second v _ rfl, ← hrow]
  rfl

/-- From cycle 337 on nothing happens up to the first pixel cycle of the next line (48_ppu_renderer.md R212, R230). -/
theorem Ppu.run_to_line (hs : p.scanline + 1 = y) (hy : y ≤ 239) (hc : p.cycle = 337) :
    Ppu.run v 5 p = { p with scanline := y, cycle := 1 } := by
  have hidle : Ppu.run v 3 p = { p with cycle := 340 } := by rw [p.run_idle v (by omega) (by omega), hc]
  rw [Ppu.run_succ_last, Ppu.run_succ_last, hidle, Ppu.step_wrap v { p with cycle := 340 } rfl (by simp only; omega),
    Ppu.step_idle v _ (by simp) (by simp) (.inl rfl) (by simp), hs]

/-- The prefetch of a line, from cycle 321 of the line before to the line's first pixel cycle: slots 0 and 1 are held,
whatever the shift state was, and no pixel is emitted (48_ppu_renderer.md R222, R229). -/
theorem Ppu.run_prefetch (hs : p.scanline + 1 = y) (hy : y ≤ 239) (hc : p.cycle = 321) :
    (Ppu.run v 21 p).HoldsSlots v y 0 ∧ (Ppu.run v 21 p).pixels = p.pixels := by
  have hrun : Ppu.run v 21 p =
      { (p.prefetchFirst v y).prefetchSecond v y with scanline := y, cycle := 1 } := by
    rw [Ppu.run_add v p 8 13, p.run_prefetch_first v hs hy hc, Ppu.run_add v _ 8 5,
      Ppu.run_prefetch_second v (p := { p.prefetchFirst v y with cycle := 329 }) hs hy rfl]
    exact Ppu.run_to_line v hs hy rfl
  rw [hrun]
  refine ⟨⟨rfl, rfl, ?_, loByte_withLow _ _, ?_, loByte_withLow _ _, rfl⟩, rfl⟩
  · exact (hiByte_withLow _ _).trans (hiByte_withHigh _ _)
  · exact (hiByte_withLow _ _).trans (hiByte_withHigh _ _)

/-! ### The pixels of a slot -/

/-- While slot `m` is held, the event of its pixel `j` is the picture's (48_ppu_renderer.md R220, R222). -/
theorem Ppu.pixel_afterPixels (h : p.HoldsSlots v y m) {j : Nat} (hj : j < 8) :
    (p.afterPixels v y m j).pixel v = v.pixelAt (8 * m + j) y := by
  have hslot : (8 * m + j) / 8 = m := by omega
  have hcolumn : (8 * m + j) % 8 = j := by omega
  have hx : 8 * m + 1 + j - 1 = 8 * m + j := by omega
  have hline : p.scanline.toNat = y := by rw [h.scanline, Int.toNat_natCast]
  unfold Ppu.pixel PpuView.pixelAt Ppu.patternPair Ppu.afterPixels
  simp only [hslot, hcolumn, hx, hline, getLsbD_top_shiftLeft _ hj, h.hi, h.lo, h.attr]

/-- Emitting one more pixel of the slot. -/
theorem Ppu.emitAndShift_afterPixels (h : p.HoldsSlots v y m) {j : Nat} (hj : j < 8) :
    (p.afterPixels v y m j).emitAndShift v = { p.afterPixels v y m (j + 1) with cycle := 8 * m + 1 + j } := by
  unfold Ppu.emitAndShift
  rw [p.pixel_afterPixels v h hj]
  unfold Ppu.afterPixels
  simp only [List.range_succ, List.map_append, List.map_singleton, List.append_assoc, BitVec.shiftLeft_add]

/-- The first seven pixel cycles of a slot shift and emit (48_ppu_renderer.md R220). -/
theorem Ppu.run_pixels (h : p.HoldsSlots v y m) (hy : y ≤ 239) (hm : m ≤ 31) {j : Nat} (hj : j ≤ 7) :
    Ppu.run v j p = p.afterPixels v y m j := by
  induction j with
  | zero =>
    unfold Ppu.afterPixels
    simp [← h.cycle]
  | succ j ih =>
    have hcycle : (p.afterPixels v y m j).cycle = 8 * m + 1 + j := rfl
    rw [Ppu.run_succ_last, ih (by omega), Ppu.step_pixel v (p.afterPixels v y m j) h.scanline hy (by omega) (by omega),
      Ppu.pixelCycle_between_reloads v _ (by omega), p.emitAndShift_afterPixels v h (by omega)]
    rfl

/-- The eight pixel cycles of a slot emit its pixels of the picture and bring the next slot up (48_ppu_renderer.md R222,
R228). -/
theorem Ppu.run_slot (h : p.HoldsSlots v y m) (hy : y ≤ 239) (hm : m ≤ 31) :
    (Ppu.run v 8 p).HoldsSlots v y (m + 1) ∧
      (Ppu.run v 8 p).pixels = p.pixels ++ (List.range 8).map fun k => v.pixelAt (8 * m + k) y := by
  have hcycle : (p.afterPixels v y m 7).cycle = 8 * m + 8 := rfl
  have hline : (p.afterPixels v y m 7).scanline = y := h.scanline
  have hslot : (8 * m + 8) / 8 = m + 1 := by omega
  rw [Ppu.run_succ_last, p.run_pixels v h hy hm le_rfl, Ppu.step_pixel v _ hline hy (by omega) (by omega),
    Ppu.pixelCycle_reload v _ (by omega), p.emitAndShift_afterPixels v h (by decide), hcycle, hline, hslot,
    Int.toNat_natCast]
  refine ⟨⟨h.scanline, by simp only; omega, ?hi, loByte_withLow _ _, ?lo, loByte_withLow _ _, rfl⟩, rfl⟩
  case hi => exact (hiByte_withLow _ _).trans ((hiByte_shiftLeft_eight _).trans h.hiNext)
  case lo => exact (hiByte_withLow _ _).trans ((hiByte_shiftLeft_eight _).trans h.loNext)

/-- The slots of a line from its first pixel cycle on, one after the other. -/
theorem Ppu.run_slots (h : p.HoldsSlots v y 0) (hy : y ≤ 239) (hm : m ≤ 32) :
    (Ppu.run v (8 * m) p).HoldsSlots v y m ∧
      (Ppu.run v (8 * m) p).pixels = p.pixels ++ (List.range (8 * m)).map fun x => v.pixelAt x y := by
  induction m with
  | zero => exact ⟨h, (List.append_nil _).symm⟩
  | succ m ih =>
    obtain ⟨hslots, hpixels⟩ := ih (by omega)
    obtain ⟨hslots', hpixels'⟩ := Ppu.run_slot v hslots hy (by omega)
    rw [Nat.mul_succ, Ppu.run_add]
    refine ⟨hslots', ?_⟩
    rw [hpixels', hpixels, List.range_add, List.map_append, List.append_assoc, List.map_map]
    rfl

/-- A line from its prefetch on: when slot `m`'s first cycle begins, its slots are held and the pixels before it are the
picture's. -/
theorem Ppu.run_line (hs : p.scanline + 1 = y) (hy : y ≤ 239) (hc : p.cycle = 321) (hm : m ≤ 32) :
    (Ppu.run v (20 + (8 * m + 1)) p).HoldsSlots v y m ∧
      (Ppu.run v (20 + (8 * m + 1)) p).pixels = p.pixels ++ (List.range (8 * m)).map fun x => v.pixelAt x y := by
  obtain ⟨hslots, hpixels⟩ := p.run_prefetch v hs hy hc
  have hsplit : 20 + (8 * m + 1) = 21 + 8 * m := by omega
  rw [hsplit, Ppu.run_add, ← hpixels]
  exact Ppu.run_slots v hslots hy hm

end

/-! ### The statements -/

/-- Settles O56: the prefetch loads slots 0 and 1, and every eighth pixel cycle brings the next slot up. -/
theorem shiftersHoldTheirSlots : Obligations.ShiftersHoldTheirSlots := by
  intro v p y m hy hm hs hc
  obtain ⟨⟨hline, hcycle, hhi, hhiNext, hlo, hloNext, hattr⟩, -⟩ := p.run_line v hs hy hc (m := m) (by omega)
  exact ⟨hline, hcycle, hhi, hhiNext, hlo, hloNext, hattr⟩

/-- Settles O57: the events of all 32 slots of the line. -/
theorem scanlineShowsThePicture : Obligations.ScanlineShowsThePicture := fun v p _ hy hs hc =>
  (p.run_line v hs hy hc (m := 32) le_rfl).2

end Sys2Proof.Machine

/-! PROOF. The statement about a whole frame (48_ppu_renderer.md R211, R221): which coordinates a step emits, then those
of the cycles of one line, then those of the lines of a frame. -/

namespace Sys2Proof.Machine

/-- `n` cycles from `p` append events with these coordinates, in this order. -/
def Ppu.Emits (v : PpuView) (n : Nat) (p : Ppu) (coords : List (Nat × Nat)) : Prop :=
  ∃ events, (Ppu.run v n p).pixels = p.pixels ++ events ∧ events.map (fun e => (e.x, e.y)) = coords

/-- The first `n` coordinates in raster order, 256 to a line (48_ppu_renderer.md R221). -/
def raster (n : Nat) : List (Nat × Nat) := (List.range n).map fun k => (k % 256, k / 256)

/-- The coordinates that the first `n` cycles of line `scanline` emit: those of the cycles from 1 to 256 among them, if
the line is visible (48_ppu_renderer.md R212). -/
def lineCoords (scanline : Int) (n : Nat) : List (Nat × Nat) :=
  if 0 ≤ scanline ∧ scanline ≤ 239 then (List.range (min (n - 1) 256)).map fun x => (x, scanline.toNat) else []

section

variable (v : PpuView) {p : Ppu}

/-! ### Emitted coordinates -/

theorem Ppu.Emits.zero : p.Emits v 0 [] := ⟨[], (List.append_nil _).symm, rfl⟩

/-- What two runs in a row emit. -/
theorem Ppu.Emits.add {m n : Nat} {first second : List (Nat × Nat)} (h : p.Emits v m first)
    (h' : (Ppu.run v m p).Emits v n second) : p.Emits v (m + n) (first ++ second) := by
  obtain ⟨events, hpixels, rfl⟩ := h
  obtain ⟨events', hpixels', rfl⟩ := h'
  refine ⟨events ++ events', ?_, List.map_append⟩
  rw [Ppu.run_add, hpixels', hpixels, List.append_assoc]

/-- A pixel cycle is cycle 1 to 256 of a visible scanline (48_ppu_renderer.md R212, R220). -/
theorem Ppu.onPixel_iff (p : Ppu) :
    p.onPixel = true ↔ (0 ≤ p.scanline ∧ p.scanline ≤ 239) ∧ 1 ≤ p.cycle ∧ p.cycle ≤ 256 := by
  unfold Ppu.onPixel Ppu.visible
  simp only [Bool.and_eq_true, decide_eq_true_eq, and_assoc]

/-- A step emits the coordinates of its position on a pixel cycle, and nothing elsewhere (48_ppu_renderer.md R221). -/
theorem Ppu.emits_one (p : Ppu) :
    p.Emits v 1 (if p.onPixel then [(p.cycle - 1, p.scanline.toNat)] else []) := by
  refine ⟨_, p.step_pixels v, ?_⟩
  cases p.onPixel <;> rfl

/-! ### One line -/

/-- One more cycle of a line emits its coordinates, if it is a pixel cycle. -/
theorem lineCoords_succ (p : Ppu) :
    lineCoords p.scanline (p.cycle + 1) =
      lineCoords p.scanline p.cycle ++ if p.onPixel then [(p.cycle - 1, p.scanline.toNat)] else [] := by
  unfold lineCoords
  by_cases hvisible : 0 ≤ p.scanline ∧ p.scanline ≤ 239
  case neg => simp [hvisible, Ppu.onPixel_iff]
  by_cases hcycle : 1 ≤ p.cycle ∧ p.cycle ≤ 256
  case pos =>
    have hbefore : min (p.cycle - 1) 256 = p.cycle - 1 := by omega
    have hafter : min (p.cycle + 1 - 1) 256 = p.cycle - 1 + 1 := by omega
    rw [if_pos hvisible, if_pos hvisible, if_pos ((Ppu.onPixel_iff p).mpr ⟨hvisible, hcycle⟩), hbefore, hafter,
      List.range_succ, List.map_append, List.map_singleton]
  case neg =>
    have hsame : min (p.cycle + 1 - 1) 256 = min (p.cycle - 1) 256 := by omega
    rw [if_pos hvisible, if_pos hvisible, if_neg fun h => hcycle ((Ppu.onPixel_iff p).mp h).2, hsame, List.append_nil]

/-- One more cycle of a run whose coordinates are the line's so far. -/
theorem Ppu.Emits.next_cycle {scanline : Int} {n : Nat} (h : p.Emits v n (lineCoords scanline n))
    (hline : (Ppu.run v n p).scanline = scanline) (hcycle : (Ppu.run v n p).cycle = n) :
    p.Emits v (n + 1) (lineCoords scanline (n + 1)) := by
  have hcoords := lineCoords_succ (Ppu.run v n p)
  have hone := (Ppu.run v n p).emits_one v
  rw [hline, hcycle] at hcoords hone
  rw [hcoords]
  exact h.add v hone

/-- The cycles of one line, from its start: the position counts on, and the line's coordinates are emitted. -/
theorem Ppu.run_inside_line (hc : p.cycle = 0) {n : Nat} (hn : n ≤ 340) :
    (Ppu.run v n p).scanline = p.scanline ∧ (Ppu.run v n p).cycle = n ∧ p.Emits v n (lineCoords p.scanline n) := by
  induction n with
  | zero =>
    have hnone : lineCoords p.scanline 0 = [] := by simp [lineCoords]
    rw [hnone]
    exact ⟨rfl, hc, .zero v⟩
  | succ n ih =>
    obtain ⟨hline, hcycle, hemits⟩ := ih (by omega)
    obtain ⟨hline', hcycle'⟩ := (Ppu.run v n p).step_position v
    rw [if_neg (by omega)] at hline' hcycle'
    refine ⟨?_, ?_, hemits.next_cycle v hline hcycle⟩
    · rw [Ppu.run_succ_last, hline', hline]
    · rw [Ppu.run_succ_last, hcycle', hcycle]

/-- A whole line of 341 cycles emits the 256 coordinates of a visible line, and nothing on any other. -/
theorem Ppu.emits_line (hc : p.cycle = 0) : p.Emits v 341 (lineCoords p.scanline 341) := by
  obtain ⟨hline, hcycle, hemits⟩ := p.run_inside_line v hc (n := 340) le_rfl
  exact hemits.next_cycle v hline hcycle

/-! ### One frame -/

/-- From the start of a frame, the position after `n` cycles of it (48_ppu_renderer.md R211). -/
theorem Ppu.run_frame_index (hs : p.scanline = -1) (hc : p.cycle = 0) (n : Nat) :
    (Ppu.run v n p).Legal ∧ (Ppu.run v n p).index = n % 89342 := by
  have hindex : p.index = 0 := by simp [Ppu.index, hs, hc]
  have hrun := ppuPositionCountsModuloOneFrame v p n (by unfold Ppu.Legal; omega)
  rwa [hindex, Int.zero_add] at hrun

/-- The next line's coordinates in raster order. -/
theorem raster_line (n : Nat) :
    raster (256 * n + 256) = raster (256 * n) ++ (List.range 256).map fun x => (x, n) := by
  unfold raster
  rw [List.range_add, List.map_append, List.map_map]
  congr 1
  apply List.map_congr_left
  intro x hx
  have hlt := List.mem_range.mp hx
  simp only [Function.comp_apply, Prod.mk.injEq]
  omega

/-- The lines of a frame, from its start: after the pre-render line 240 lines emit their coordinates in raster order,
and the rest emit nothing. -/
theorem Ppu.emits_lines (hs : p.scanline = -1) (hc : p.cycle = 0) {n : Nat} (hn : n ≤ 262) :
    p.Emits v (341 * n) (raster (256 * min (n - 1) 240)) := by
  induction n with
  | zero => exact .zero v
  | succ n ih =>
    obtain ⟨hlegal, hindex⟩ := p.run_frame_index v hs hc (341 * n)
    have hposition : (Ppu.run v (341 * n) p).scanline = (n : Int) - 1 ∧ (Ppu.run v (341 * n) p).cycle = 0 := by
      unfold Ppu.index at hindex
      omega
    obtain ⟨hline, hcycle⟩ := hposition
    have hrest := Ppu.emits_line v hcycle
    rw [hline] at hrest
    suffices hcoords : raster (256 * min (n + 1 - 1) 240) =
        raster (256 * min (n - 1) 240) ++ lineCoords ((n : Int) - 1) 341 by
      rw [hcoords]
      exact (ih (by omega)).add v hrest
    unfold lineCoords
    by_cases hvisible : 1 ≤ n ∧ n ≤ 240
    case pos =>
      have hafter : 256 * min (n + 1 - 1) 240 = 256 * (n - 1) + 256 := by omega
      have hbefore : 256 * min (n - 1) 240 = 256 * (n - 1) := by omega
      have hrow : ((n : Int) - 1).toNat = n - 1 := by omega
      rw [if_pos (by omega), hafter, hbefore, hrow, raster_line]
      rfl
    case neg =>
      have hsame : min (n + 1 - 1) 240 = min (n - 1) 240 := by omega
      rw [if_neg (by omega), hsame, List.append_nil]

end

/-! ### The statements -/

/-- Settles O58: a frame is 262 lines of 341 cycles, and 240 of them emit 256 pixels each. -/
theorem frameEmitsRasterOrder : Obligations.FrameEmitsRasterOrder := by
  intro v p hs hc
  obtain ⟨events, hpixels, hcoords⟩ := p.emits_lines v hs hc (n := 262) le_rfl
  obtain ⟨hlegal, hindex⟩ := p.run_frame_index v hs hc 89342
  have hposition : (Ppu.run v 89342 p).scanline = -1 ∧ (Ppu.run v 89342 p).cycle = 0 := by
    unfold Ppu.index at hindex
    omega
  exact ⟨events, hpixels, hcoords, hposition⟩

end Sys2Proof.Machine
